-- ==== Sys2Proof/Word.lean ====
section
/-! DEFINITION. The word types of the engine (00_scope.md R9: every value is an unsigned bit vector of a
stated width). The byte-order and rotation operations stand in Machine/Bytes.lean and Machine/Compress.lean. -/

namespace Sys2Proof

/-- `u8` (R9). -/
abbrev Byte := BitVec 8

/-- `u32` (R9): a hash word, a command word, the STATUS word. -/
abbrev Word := BitVec 32

/-- `u64` (R9): the byte counter TLEN and the length field. -/
abbrev DWord := BitVec 64

/-- A 64-byte block, the unit `Compress` processes (R6); also the buffer BUF. -/
abbrev Block := Vector Byte 64

/-- The 16 digest bytes (R6, R28). -/
abbrev Digest := Vector Byte 16

/-- The four hash words H[0..3] (R21): exactly four (90_conflicts.md C1). -/
structure Hash where
  h0 : Word
  h1 : Word
  h2 : Word
  h3 : Word
  deriving DecidableEq, Repr

end Sys2Proof
end

