-- ==== Sys2Proof/Syntax.lean ====
section
/-! DEFINITION. The commands of spec/opcode_table.json, one constructor per row (30_encoding.md R72, R76). -/

namespace Sys2Proof

/-- A decoded command. A word that decodes to none of these is ILLEGAL (R77); that is no row of the table and
no constructor here: the decoder rejects it by name and the step answers it (Machine/Perform.lean). -/
inductive Instr where
  /-- BEGIN (R101): no operand. -/
  | begin
  /-- UPDATE n (R105): `len` is the LEN field, an unsigned 7-bit byte count 0..127 (R73). -/
  | update (len : BitVec 7)
  /-- RESULT (R120): no operand. -/
  | result
  deriving DecidableEq, Repr

end Sys2Proof
end

