-- ==== Sys2Proof/WellFormed.lean ====
section
/-! DEFINITION. Which command words are well-formed (30_encoding.md R76): those that match a row of
spec/opcode_table.json. Written from the table's match and mask columns, apart from the decoder, which is
written from R75, so that the two can be compared. Every term of `Instr` is well-formed by its type: LEN is a
7-bit field and R73 calls each of 0..127 well-formed. -/

namespace Sys2Proof

/-- One row of the opcode table: a word `w` belongs to it when `w &&& mask = pattern`. -/
structure OpcodeRow where
  mnemonic : String
  pattern : Word
  mask : Word
  deriving DecidableEq, Repr

/-- BEGIN is exactly 0x00000001 (R76). -/
def beginRow : OpcodeRow := ⟨"BEGIN", 0x00000001#32, 0xFFFFFFFF#32⟩

/-- UPDATE: OPC and RSV are fixed, LEN is free (R76). -/
def updateRow : OpcodeRow := ⟨"UPDATE", 0x00000002#32, 0xFFFF80FF#32⟩

/-- RESULT is exactly 0x00000003 (R76). -/
def resultRow : OpcodeRow := ⟨"RESULT", 0x00000003#32, 0xFFFFFFFF#32⟩

/-- The whole table, in its own order. -/
def opcodeTable : List OpcodeRow := [beginRow, updateRow, resultRow]

/-- A word matches a row of the table. -/
def OpcodeRow.matches (r : OpcodeRow) (w : Word) : Bool := w &&& r.mask == r.pattern

/-- A command word is well-formed when some row of the table matches it (R76); every other word is ILLEGAL. -/
def wellFormedWord (w : Word) : Bool := opcodeTable.any fun r => r.matches w

end Sys2Proof
end

