-- ==== Sys2Proof/Decode.lean ====
section
/-! DEFINITION. The decoder, total on all 2^32 words (30_encoding.md R75), rejecting by name, and after it the
encoder (R76, R85). A command is one 32-bit word with no byte order of its own (R56, R70). -/

namespace Sys2Proof

/-- Why a word is ILLEGAL: the three groups of R77. The hardware does not tell them apart (every one answers
ERR_ILLEGAL, R181); the name is for the reader. -/
inductive DecodeError where
  /-- (b) of R77: RSV is not zero. -/
  | reservedBits
  /-- (c) of R77: BEGIN or RESULT with a nonzero LEN. -/
  | lengthField
  /-- (a) of R77: OPC is 0x00 or 0x04..0xFF. -/
  | unassignedOpcode
  deriving DecidableEq, Repr

/-- OPC, bits [7:0] (R71). -/
def opcField (w : Word) : BitVec 8 := w.extractLsb' 0 8

/-- LEN, bits [14:8] (R71). -/
def lenField (w : Word) : BitVec 7 := w.extractLsb' 8 7

/-- RSV, bits [31:15] (R71). -/
def rsvField (w : Word) : BitVec 17 := w.extractLsb' 15 17

/-- `decode` of R75. -/
def decode (w : Word) : Except DecodeError Instr :=
  if rsvField w ≠ 0 then .error .reservedBits
  else if opcField w = 0x01 then (if lenField w = 0 then .ok .begin else .error .lengthField)
  else if opcField w = 0x02 then .ok (.update (lenField w))
  else if opcField w = 0x03 then (if lenField w = 0 then .ok .result else .error .lengthField)
  else .error .unassignedOpcode

/-- The word of a command (R76, R85). -/
def encode : Instr → Word
  | .begin => 0x00000001
  | .update n => 0x00000002 ||| (n.setWidth 32 <<< 8)
  | .result => 0x00000003

/-- The decoder on the opcode table's own numbering of bits: a command is one 32-bit word (R70), so its low
`nbits` bits are taken from `w` and the rest are zero; more than 32 bits are no command. -/
def decodeTableWord (nbits w : Nat) : Option Instr :=
  if nbits ≤ 32 then
    match decode (BitVec.ofNat 32 (w % 2 ^ nbits)) with
    | .ok i => some i
    | .error _ => none
  else none

end Sys2Proof
end

