-- ==== Sys2Proof/Config.lean ====
section
/-! DEFINITION. What the spec leaves open: the OPEN parameters (93_implementation_defined.md section 3) and the
free values for what it calls unspecified (its section 2). Every constant here is opaque: nothing can be proved
of its value. A free value is applied to `State.draws`, the count of draws made so far, so that each draw may
differ from the one before. -/

namespace Sys2Proof.Config

/-- ENGINE_COUNT is at least 1 (93 section 3): the number of engines besides the first. -/
opaque furtherEngines : Nat

/-- ENGINE_COUNT (R6, R194): how many engines the platform has. -/
def engineCount : Nat := furtherEngines + 1

/-- PORT_BASE (R50): where the platform places the four ports. No rule depends on it. -/
opaque portBase : Nat

/-- CMD_LATENCY (R215): the time a command takes. No rule depends on it. -/
opaque cmdLatency : Nat

/-- An unspecified byte of BUF (R23, R40, R101, R125): `freeBufByte draw index`. -/
opaque freeBufByte (draw index : Nat) : Byte

/-- An unspecified hash word after a hardware reset (R40): `freeHashWord draw index`. -/
opaque freeHashWord (draw index : Nat) : Word

/-- An unspecified BLEN (R40, R125). Its type keeps R40's bound: any value in 0..63. -/
opaque freeBlen (draw : Nat) : BitVec 6

/-- An unspecified TLEN (R40, R125). -/
opaque freeTlen (draw : Nat) : DWord

/-- An unspecified DIGEST byte after a hardware reset (R40): `freeDigestByte draw index`. -/
opaque freeDigestByte (draw index : Nat) : Byte

/-- 64 unspecified bytes for BUF. -/
def freeBlock (draw : Nat) : Block := Vector.ofFn fun i => freeBufByte draw i.val

/-- Four unspecified hash words. -/
def freeHash (draw : Nat) : Hash :=
  ⟨freeHashWord draw 0, freeHashWord draw 1, freeHashWord draw 2, freeHashWord draw 3⟩

/-- 16 unspecified digest bytes. -/
def freeDigest (draw : Nat) : Digest := Vector.ofFn fun i => freeDigestByte draw i.val

end Sys2Proof.Config
end

