-- ==== Sys2Proof/Machine/Bytes.lean ====
section
/-! DEFINITION. The byte-order operations of 00_scope.md R11 and the block reading of 44_compression.md R145. -/

namespace Sys2Proof.Machine

/-- `le32(w)`: the four bytes of a word, least significant first (R11). -/
def le32 (w : Word) : List Byte :=
  [w.extractLsb' 0 8, w.extractLsb' 8 8, w.extractLsb' 16 8, w.extractLsb' 24 8]

/-- `le64(v)`: the eight bytes of a double word, least significant first (R11, R54). -/
def le64 (v : DWord) : List Byte :=
  [v.extractLsb' 0 8, v.extractLsb' 8 8, v.extractLsb' 16 8, v.extractLsb' 24 8,
   v.extractLsb' 32 8, v.extractLsb' 40 8, v.extractLsb' 48 8, v.extractLsb' 56 8]

/-- `le32inv(b0,b1,b2,b3)` (R11). -/
def le32inv (b0 b1 b2 b3 : Byte) : Word :=
  b0.setWidth 32 ||| (b1.setWidth 32 <<< 8) ||| (b2.setWidth 32 <<< 16) ||| (b3.setWidth 32 <<< 24)

/-- H[j]: the hash words by number (R21). -/
def hashWord (h : Hash) (j : Fin 4) : Word :=
  match j with
  | 0 => h.h0
  | 1 => h.h1
  | 2 => h.h2
  | 3 => h.h3

/-- `le32(H[0]) ++ le32(H[1]) ++ le32(H[2]) ++ le32(H[3])`, the digest serialization (R55, R124). -/
def serialize (h : Hash) : Digest :=
  ⟨(le32 h.h0 ++ le32 h.h1 ++ le32 h.h2 ++ le32 h.h3).toArray, rfl⟩

/-- `zeros(k)` (R11). -/
def zeros (k : Nat) : List Byte := List.replicate k 0

/-- The k-th 64-byte block `s[64k .. 64k+64)` of a byte sequence (R123, R133). Every use is on a sequence that
has those bytes (`blockAt` is called below its length only), so the 0 that fills a short sequence never shows. Irreducible for
the sake of proofs. -/
@[irreducible] def blockAt (s : List Byte) (k : Nat) : Block := Vector.ofFn fun i => s.getD (64 * k + i.val) 0

/-- M[j], the j-th message word of a block, little-endian (R53, R145). -/
def messageWord (blk : Block) (j : Fin 16) : Word :=
  le32inv (blk[4 * j.val]'(by omega)) (blk[4 * j.val + 1]'(by omega))
    (blk[4 * j.val + 2]'(by omega)) (blk[4 * j.val + 3]'(by omega))

end Sys2Proof.Machine
end

