-- ==== Sys2Proof/Machine/Compress.lean ====
section
/-! DEFINITION. The MD5 compression function (44_compression.md R140 to R150). The constants are those of the
spec's own tables (the spec marks them as taken from RFC 1321; log 14). -/

namespace Sys2Proof.Machine

/-- `rotl32(x, s)` for 1 <= s <= 31 (R10). -/
def rotl32 (x : Word) (s : Nat) : Word := (x <<< s) ||| (x >>> (32 - s))

/-- The initial value IV (R140). -/
def iv : Hash := ⟨0x67452301, 0xEFCDAB89, 0x98BADCFE, 0x10325476⟩

/-- Round 0 function (R141). -/
def f0 (x y z : Word) : Word := (x &&& y) ||| (~~~x &&& z)

/-- Round 1 function (R142). -/
def f1 (x y z : Word) : Word := (x &&& z) ||| (y &&& ~~~z)

/-- Round 2 function (R143). -/
def f2 (x y z : Word) : Word := x ^^^ y ^^^ z

/-- Round 3 function (R144). -/
def f3 (x y z : Word) : Word := y ^^^ (x ||| ~~~z)

/-- The names of the round functions, as the last column of R148's table gives them. -/
inductive RoundFn where
  | f0
  | f1
  | f2
  | f3
  deriving DecidableEq, Repr

/-- The function a name stands for (R141 to R144). -/
def applyRoundFn : RoundFn → Word → Word → Word → Word
  | .f0 => f0
  | .f1 => f1
  | .f2 => f2
  | .f3 => f3

/-- One row of the table of R148: K[i], S[i], g(i) and the function. -/
structure StepRow where
  k : Word
  s : Nat
  g : Fin 16
  f : RoundFn
  deriving DecidableEq, Repr

/-- Round 0: steps 0 to 15 of the table of R148. -/
def round0 : List StepRow :=
  [⟨0xD76AA478, 7, 0, .f0⟩, ⟨0xE8C7B756, 12, 1, .f0⟩, ⟨0x242070DB, 17, 2, .f0⟩, ⟨0xC1BDCEEE, 22, 3, .f0⟩,
   ⟨0xF57C0FAF, 7, 4, .f0⟩, ⟨0x4787C62A, 12, 5, .f0⟩, ⟨0xA8304613, 17, 6, .f0⟩, ⟨0xFD469501, 22, 7, .f0⟩,
   ⟨0x698098D8, 7, 8, .f0⟩, ⟨0x8B44F7AF, 12, 9, .f0⟩, ⟨0xFFFF5BB1, 17, 10, .f0⟩, ⟨0x895CD7BE, 22, 11, .f0⟩,
   ⟨0x6B901122, 7, 12, .f0⟩, ⟨0xFD987193, 12, 13, .f0⟩, ⟨0xA679438E, 17, 14, .f0⟩, ⟨0x49B40821, 22, 15, .f0⟩]

/-- Round 1: steps 16 to 31 of the table of R148. -/
def round1 : List StepRow :=
  [⟨0xF61E2562, 5, 1, .f1⟩, ⟨0xC040B340, 9, 6, .f1⟩, ⟨0x265E5A51, 14, 11, .f1⟩, ⟨0xE9B6C7AA, 20, 0, .f1⟩,
   ⟨0xD62F105D, 5, 5, .f1⟩, ⟨0x02441453, 9, 10, .f1⟩, ⟨0xD8A1E681, 14, 15, .f1⟩, ⟨0xE7D3FBC8, 20, 4, .f1⟩,
   ⟨0x21E1CDE6, 5, 9, .f1⟩, ⟨0xC33707D6, 9, 14, .f1⟩, ⟨0xF4D50D87, 14, 3, .f1⟩, ⟨0x455A14ED, 20, 8, .f1⟩,
   ⟨0xA9E3E905, 5, 13, .f1⟩, ⟨0xFCEFA3F8, 9, 2, .f1⟩, ⟨0x676F02D9, 14, 7, .f1⟩, ⟨0x8D2A4C8A, 20, 12, .f1⟩]

/-- Round 2: steps 32 to 47 of the table of R148. -/
def round2 : List StepRow :=
  [⟨0xFFFA3942, 4, 5, .f2⟩, ⟨0x8771F681, 11, 8, .f2⟩, ⟨0x6D9D6122, 16, 11, .f2⟩, ⟨0xFDE5380C, 23, 14, .f2⟩,
   ⟨0xA4BEEA44, 4, 1, .f2⟩, ⟨0x4BDECFA9, 11, 4, .f2⟩, ⟨0xF6BB4B60, 16, 7, .f2⟩, ⟨0xBEBFBC70, 23, 10, .f2⟩,
   ⟨0x289B7EC6, 4, 13, .f2⟩, ⟨0xEAA127FA, 11, 0, .f2⟩, ⟨0xD4EF3085, 16, 3, .f2⟩, ⟨0x04881D05, 23, 6, .f2⟩,
   ⟨0xD9D4D039, 4, 9, .f2⟩, ⟨0xE6DB99E5, 11, 12, .f2⟩, ⟨0x1FA27CF8, 16, 15, .f2⟩, ⟨0xC4AC5665, 23, 2, .f2⟩]

/-- Round 3: steps 48 to 63 of the table of R148. -/
def round3 : List StepRow :=
  [⟨0xF4292244, 6, 0, .f3⟩, ⟨0x432AFF97, 10, 7, .f3⟩, ⟨0xAB9423A7, 15, 14, .f3⟩, ⟨0xFC93A039, 21, 5, .f3⟩,
   ⟨0x655B59C3, 6, 12, .f3⟩, ⟨0x8F0CCC92, 10, 3, .f3⟩, ⟨0xFFEFF47D, 15, 10, .f3⟩, ⟨0x85845DD1, 21, 1, .f3⟩,
   ⟨0x6FA87E4F, 6, 8, .f3⟩, ⟨0xFE2CE6E0, 10, 15, .f3⟩, ⟨0xA3014314, 15, 6, .f3⟩, ⟨0x4E0811A1, 21, 13, .f3⟩,
   ⟨0xF7537E82, 6, 4, .f3⟩, ⟨0xBD3AF235, 10, 11, .f3⟩, ⟨0x2AD7D2BB, 15, 2, .f3⟩, ⟨0xEB86D391, 21, 9, .f3⟩]

/-- The 64 rows in increasing i (R148, R150). -/
def schedule : List StepRow := round0 ++ round1 ++ round2 ++ round3

/-- One step on the working variables (a, b, c, d), held as a `Hash` (R149). Every right-hand side is read
before any variable is written (R151). -/
def md5Step (blk : Block) (v : Hash) (row : StepRow) : Hash :=
  let t := v.h0 + applyRoundFn row.f v.h1 v.h2 v.h3 + row.k + messageWord blk row.g
  ⟨v.h3, v.h1 + rotl32 t row.s, v.h1, v.h2⟩

/-- The feed-forward addition that ends `Compress` (R150). -/
def feedForward (h v : Hash) : Hash := ⟨h.h0 + v.h0, h.h1 + v.h1, h.h2 + v.h2, h.h3 + v.h3⟩

/-- `Compress(h, blk)` (R150). Total: no error, no data-dependent control flow. Irreducible, so that no proof step
unfolds its 64 steps unasked (`unfold compress`, or `decide +kernel` on numerals, still runs it). -/
@[irreducible] def compress (h : Hash) (blk : Block) : Hash := feedForward h (schedule.foldl (md5Step blk) h)

end Sys2Proof.Machine
end

