-- ==== Sys2Proof/Machine/State.lean ====
section
/-! DEFINITION. The state of the engine (10_state.md R20) as plain data, the host's coming actions and the
observation of the run (70_reset_and_hazards.md R208), the ways a step can stop, and the state after reset. -/

namespace Sys2Proof.Machine

/-- PHASE (R27). Its two-bit codes are `phaseCode` of Machine/Flags.lean. -/
inductive Phase where
  | idle
  | fresh
  | absorbing
  | finalized
  deriving DecidableEq, Repr

/-- A command's response code, also the content of LAST (R180, R32). Its two-bit codes are `responseCode`. -/
inductive Response where
  | ok
  | errIllegal
  | errMisuse
  | errLength
  deriving DecidableEq, Repr

/-- The bytes of DIN that the host has written since reset: (address, byte) cells, addresses strictly rising and
below 64. An unlisted address is unwritten: it holds no value (R29, R40). -/
abbrev Memory := List Host.Cell

/-- What the host does to the engine between commands (R197, R200, R208). -/
inductive HostAction where
  /-- Write word `w` to CMD: issue that command (R30, R100). -/
  | issue (w : Word)
  /-- Write one byte of the DIN port (R29, R58). -/
  | writeDin (k : Fin 64) (b : Byte)
  /-- Read the STATUS port (R31). -/
  | readStatus
  /-- Read the DIGEST port (R28). -/
  | readDigest
  /-- Assert the hardware reset input (R200). -/
  | reset
  deriving DecidableEq, Repr

/-- What the host sees: the sequence of responses and port-read values (R208). -/
inductive Observation where
  /-- A command's response (R180). -/
  | response (r : Response)
  /-- The word a read of STATUS returned. -/
  | status (w : Word)
  /-- The bytes a read of DIGEST returned. -/
  | digest (d : Digest)
  deriving DecidableEq, Repr

/-- The MODEL FAULTS of R13: the host did something whose result the spec does not fix. Both are safe: the model
stops where the hardware would go on with a value nobody states. -/
inductive Fault where
  /-- Raised by UPDATE (only once it is accepted, R186) when it reads a DIN byte that the host has not written
  since reset (R29, D17). Safe. -/
  | dinUnwritten
  /-- Raised by the host's read of DIGEST while DVALID = 0 (R28, D13). Safe. -/
  | digestNotValid
  deriving DecidableEq, Repr

/-- The reasons a step can have no meaning. -/
inductive Refusal where
  /-- Raised by `exec` for an instruction the model gives no meaning yet. No instruction of this model is
  rejected so. Safe. -/
  | notModelled (mnemonic : String)
  deriving DecidableEq, Repr

/-- Every element of R20, one field each, and after them the model's own three fields. -/
structure State where
  /-- H[0..3] (R21). -/
  h : Hash
  /-- BUF[0..63] (R23). -/
  buf : Block
  /-- BLEN, 0..63 (R24). -/
  blen : BitVec 6
  /-- TLEN (R25). -/
  tlen : DWord
  /-- PHASE (R27). -/
  phase : Phase
  /-- DVALID (R34). -/
  dvalid : Bool
  /-- LAST (R32). -/
  last : Response
  /-- ERR_ILLEGAL_S (R33). -/
  errIllegalS : Bool
  /-- ERR_MISUSE_S (R33). -/
  errMisuseS : Bool
  /-- ERR_LENGTH_S (R33). -/
  errLengthS : Bool
  /-- DIGEST[0..15] (R28). -/
  digest : Digest
  /-- DIN[0..63] (R29). -/
  din : Memory
  /-- The MODEL's own: the host's coming actions, oldest first (log 1). -/
  pending : List HostAction
  /-- The MODEL's own: the observation of the run so far, oldest first (R208; log 2). -/
  obs : List Observation
  /-- The MODEL's own: how many draws of free values have been made (log 4). -/
  draws : Nat
  deriving DecidableEq, Repr

/-- The machine right after hardware reset (R40): PHASE IDLE, DVALID 0, LAST OK, sticky bits 0, DIN unwritten.
DESIGN CHOICE, unsafe: H, BUF, BLEN, TLEN and DIGEST, which R40 leaves unspecified, are zero (log 3). The model's
own fields start empty (log 1, 2, 4). -/
def State.reset : State where
  h := ⟨0, 0, 0, 0⟩
  buf := Vector.replicate 64 0
  blen := 0
  tlen := 0
  phase := .idle
  dvalid := false
  last := .ok
  errIllegalS := false
  errMisuseS := false
  errLengthS := false
  digest := Vector.replicate 16 0
  din := []
  pending := []
  obs := []
  draws := 0

end Sys2Proof.Machine
end

