-- ==== Sys2Proof/Machine/Flags.lean ====
section
/-! DEFINITION. The STATUS register, the engine's only flags (10_state.md R31 to R35, R38), and the codes of its
fields. -/

namespace Sys2Proof.Machine

/-- The numeric codes of PHASE (R27). -/
def phaseCode : Phase → BitVec 2
  | .idle => 0
  | .fresh => 1
  | .absorbing => 2
  | .finalized => 3

/-- The numeric codes of a response and of LAST (R180, R32). -/
def responseCode : Response → BitVec 2
  | .ok => 0
  | .errIllegal => 1
  | .errMisuse => 2
  | .errLength => 3

/-- A one-bit field as a 32-bit value: `zext_32` of R31. -/
def flagWord (b : Bool) : Word := (BitVec.ofBool b).setWidth 32

/-- STATUS, by the formula of R31. The reserved bits read 0 (R35). -/
def statusWord (s : State) : Word :=
  (phaseCode s.phase).setWidth 32
    ||| (flagWord s.dvalid <<< 2)
    ||| ((responseCode s.last).setWidth 32 <<< 4)
    ||| (flagWord s.errIllegalS <<< 8)
    ||| (flagWord s.errMisuseS <<< 9)
    ||| (flagWord s.errLengthS <<< 10)

/-- The sticky bit an error response sets (R33, R185); `ok` sets none. -/
def setSticky (c : Response) (s : State) : State :=
  match c with
  | .ok => s
  | .errIllegal => { s with errIllegalS := true }
  | .errMisuse => { s with errMisuseS := true }
  | .errLength => { s with errLengthS := true }

/-- The value of the sticky bit that belongs to a response (R33); `ok` has none. -/
def stickyOf (c : Response) (s : State) : Bool :=
  match c with
  | .ok => true
  | .errIllegal => s.errIllegalS
  | .errMisuse => s.errMisuseS
  | .errLength => s.errLengthS

end Sys2Proof.Machine
end

