-- ==== Sys2Proof/Machine/Ops.lean ====
section
/-! DEFINITION. The named operations over the state: the DIN port, the command frame (`respond`, `reject`,
`accept`: the engine's one way of reporting an error, 60_exceptions.md R185, R187), the block buffer, the padding
and the hardware reset. -/

namespace Sys2Proof.Machine

/-- The canonical form of DIN: addresses strictly rising, all below 64 (R29: DIN[0..63]). -/
abbrev Memory.wf (m : Memory) : Prop :=
  m.Pairwise (fun c d => c.1 < d.1) ∧ ∀ c ∈ m, c.1 < 64

/-- DIN[a] as it stands, or nothing where the host has not written it since reset (R29). -/
def memRead (m : Memory) (a : Nat) : Option Byte :=
  match m with
  | [] => none
  | c :: rest => if c.1 = a then some c.2 else memRead rest a

/-- The host's write of one byte; it keeps the addresses strictly rising (R29: a byte keeps its last written
value). -/
def memWrite (m : Memory) (a : Nat) (b : Byte) : Memory :=
  match m with
  | [] => [(a, b)]
  | c :: rest =>
    if a < c.1 then (a, b) :: c :: rest
    else if a = c.1 then (a, b) :: rest
    else c :: memWrite rest a b

/-- The host writes DIN[k] (R29, R59: nothing else changes). -/
def writeDinByte (k : Fin 64) (b : Byte) (s : State) : State := { s with din := memWrite s.din k.val b }

/-- One more thing the host sees (R208). -/
def observe (o : Observation) (s : State) : State := { s with obs := s.obs ++ [o] }

/-- `LAST <- code; respond(code)` (R100, R12, R32): every command ends here. -/
def respond (c : Response) (s : State) : State := observe (.response c) { s with last := c }

/-- `reject(code)` (R100, R185): LAST and the matching sticky bit, and nothing else of R20. This is the engine's
whole error mechanism: no trap, no saved state, no change of control (R187). -/
def reject (c : Response) (s : State) : State := respond c (setSticky c s)

/-- An accepted command ends with OK (R184). -/
def accept (s : State) : State := respond .ok s

/-- The writes of BEGIN (R101). BUF becomes 64 unspecified bytes (free values, log 5). DIN, the bytes of DIGEST
and the sticky bits are untouched (R202). -/
def beginContext (s : State) : State :=
  { s with
    h := iv, buf := Config.freeBlock s.draws, blen := 0, tlen := 0, dvalid := false, phase := .fresh,
    draws := s.draws + 1 }

/-- One byte into BUF at BLEN; the 64th byte runs `Compress` and empties the buffer (R110, the loop body of
R105). -/
def absorbByte (s : State) (b : Byte) : State :=
  let buf := s.buf.set s.blen.toNat b (by omega)
  if s.blen = 63 then { s with buf := buf, h := compress s.h buf, blen := 0 }
  else { s with buf := buf, blen := s.blen + 1 }

/-- The loop of R105: the bytes in order. -/
def absorb (d : List Byte) (s : State) : State := d.foldl absorbByte s

/-- BUF[BLEN..64) after a command that wrote BUF is unspecified (R23): those bytes become free values (log 6),
the valid bytes BUF[0..BLEN) stay. -/
def freeTail (s : State) : State :=
  { s with
    buf := Vector.ofFn fun i => if i.val < s.blen.toNat then s.buf[i] else Config.freeBufByte s.draws i.val,
    draws := s.draws + 1 }

/-- What an accepted UPDATE does with the DIN bytes it sampled (R105, R110, R111, R112). An UPDATE of no bytes
leaves BUF as it is (R113); otherwise the bytes beyond BLEN are unspecified afterwards (R23). -/
def updateContext (d : List Byte) (s : State) : State :=
  let t := absorb d s
  let u := if d = [] then t else freeTail t
  { u with tlen := s.tlen + BitVec.ofNat 64 d.length, phase := .absorbing }

/-- The length field L = (8 x TLEN) mod 2^64 (R121). -/
def bitLength (tlen : DWord) : DWord := 8 * tlen

/-- z = (55 - BLEN) mod 64, the least count of zero bytes (R122). BLEN has 6 bits, so subtraction in 6 bits is
subtraction modulo 64. -/
def zeroCount (blen : BitVec 6) : Nat := (55 - blen).toNat

/-- BUF[0..BLEN) (R23). -/
def bufValid (s : State) : List Byte := s.buf.toList.take s.blen.toNat

/-- The tail T of RESULT: the valid bytes, 0x80, z zeros, the length field (R120, R122). -/
def tailBytes (s : State) : List Byte :=
  bufValid s ++ [0x80] ++ zeros (zeroCount s.blen) ++ le64 (bitLength s.tlen)

/-- One or two final blocks through `Compress`, in order (R123). -/
def finalHash (s : State) : Hash :=
  let t := tailBytes s
  let h1 := compress s.h (blockAt t 0)
  if t.length = 128 then compress h1 (blockAt t 1) else h1

/-- The writes of an accepted RESULT (R120). H holds the final chaining value (R125); BUF, BLEN and TLEN are
unspecified afterwards (R125, D18): free values (log 7). -/
def finishContext (s : State) : State :=
  { s with
    h := finalHash s, digest := serialize (finalHash s), dvalid := true, phase := .finalized,
    buf := Config.freeBlock s.draws, blen := Config.freeBlen s.draws, tlen := Config.freeTlen s.draws,
    draws := s.draws + 1 }

/-- Hardware reset, from any state (R200, R40). H, BUF, BLEN, TLEN and DIGEST become unspecified: free values
(log 8). It answers no response and is no command, so the observation is not changed. -/
def hardwareReset (s : State) : State :=
  { State.reset with
    h := Config.freeHash s.draws, buf := Config.freeBlock s.draws, blen := Config.freeBlen s.draws,
    tlen := Config.freeTlen s.draws, digest := Config.freeDigest s.draws,
    pending := s.pending, obs := s.obs, draws := s.draws + 1 }

end Sys2Proof.Machine
end

