-- ==== Sys2Proof/Machine/Operands.lean ====
section
/-! DEFINITION. The engine's one operand form: the LEN field of UPDATE and the DIN bytes it selects (30_encoding.md
R70, R73; 20_memory.md R51, R52). BEGIN and RESULT have no operand. -/

namespace Sys2Proof.Machine

/-- LEN = n means n bytes: unsigned, no scaling, no offset (R73). -/
abbrev updateLength (n : BitVec 7) : Nat := n.toNat

/-- `DinRead(a), DinRead(a+1), …`: n bytes of DIN from address a, nothing where one of them is unwritten. -/
def dinFrom (m : Memory) (a n : Nat) : Option (List Byte) :=
  match n with
  | 0 => some []
  | k + 1 =>
    match memRead m a, dinFrom m (a + 1) k with
    | some b, some d => some (b :: d)
    | _, _ => none

/-- DIN[0..n), sampled when the UPDATE is issued, DIN[0] first (R51, R52). -/
def dinSample (n : Nat) (s : State) : Option (List Byte) := dinFrom s.din 0 n

end Sys2Proof.Machine
end

