-- ==== Sys2Proof/Machine/Context.lean ====
section
/-! DEFINITION. The meanings of the three context commands (40_context_ops.md). -/

namespace Sys2Proof.Machine

/-- BEGIN (R101): accepted in every phase. -/
def execBegin (s : State) : Host.Outcome State Fault Refusal := .next (accept (beginContext s))

/-- UPDATE n (R105): the phase check first (R102), then the length check (R103), then the bytes. Unwritten DIN is
looked at only by an accepted UPDATE (R186). -/
def execUpdate (n : BitVec 7) (s : State) : Host.Outcome State Fault Refusal :=
  if s.phase = .idle ∨ s.phase = .finalized then .next (reject .errMisuse s)
  else if 64 < updateLength n then .next (reject .errLength s)
  else
    match dinSample (updateLength n) s with
    | none => .fault .dinUnwritten
    | some d => .next (accept (updateContext d s))

/-- RESULT (R120): the phase check, then padding, the final blocks and the digest. -/
def execResult (s : State) : Host.Outcome State Fault Refusal :=
  if s.phase = .idle ∨ s.phase = .finalized then .next (reject .errMisuse s)
  else .next (accept (finishContext s))

end Sys2Proof.Machine
end

