-- ==== Sys2Proof/Machine/Dispatch.lean ====
section
/-! DEFINITION. `exec`: one arm per command of the opcode table (the command part of `step` in 40_context_ops.md R100). -/

namespace Sys2Proof.Machine

def exec (i : Instr) (s : State) : Host.Outcome State Fault Refusal :=
  match i with
  | .begin => Sys2Proof.Machine.execBegin s
  | .update n => Sys2Proof.Machine.execUpdate n s
  | .result => Sys2Proof.Machine.execResult s

end Sys2Proof.Machine
end

