-- ==== Sys2Proof/Machine/Perform.lean ====
section
/-! DEFINITION. What the engine does for each action of the host: a command word on CMD (40_context_ops.md R100),
a DIN write, a port read, a reset (60_exceptions.md R197, 70_reset_and_hazards.md R200). -/

namespace Sys2Proof.Machine

/-- `step(w)` of R100: decode, then the command's meaning; an ILLEGAL word is rejected with ERR_ILLEGAL (R77,
R181). -/
def issueCommand (w : Word) (s : State) : Host.Outcome State Fault Refusal :=
  match decode w with
  | .ok i => exec i s
  | .error _ => .next (reject .errIllegal s)

/-- A read of STATUS: the host sees the word, the engine is unchanged (R31, R59). -/
def readStatusPort (s : State) : Host.Outcome State Fault Refusal :=
  .next (observe (.status (statusWord s)) s)

/-- A read of DIGEST: defined only while DVALID = 1 (R28); no side effect (R59). -/
def readDigestPort (s : State) : Host.Outcome State Fault Refusal :=
  if s.dvalid = true then .next (observe (.digest s.digest) s) else .fault .digestNotValid

/-- One action of the host. -/
def perform (a : HostAction) (s : State) : Host.Outcome State Fault Refusal :=
  match a with
  | .issue w => issueCommand w s
  | .writeDin k b => .next (writeDinByte k b s)
  | .readStatus => readStatusPort s
  | .readDigest => readDigestPort s
  | .reset => .next (hardwareReset s)

/-- Take the oldest pending action and perform it; with none pending the engine waits and holds its state (R196,
R201). -/
def performNext (s : State) : Host.Outcome State Fault Refusal :=
  match s.pending with
  | [] => .next s
  | a :: rest => perform a { s with pending := rest }

/-- The host's next action is the command word whose low `nbits` bits are those of `w`, the rest zero. -/
def placeCommand (nbits w : Nat) (s : State) : State :=
  { s with pending := .issue (BitVec.ofNat 32 (w % 2 ^ nbits)) :: s.pending }

end Sys2Proof.Machine
end

