-- ==== Sys2Proof/Machine/HostProgram.lean ====
section
/-! DEFINITION. The host's side of the command set: the action `din` and the pseudo-commands UPDATEB, DIGEST2 and
DIGESTN, each as the list of host actions it expands to (30_encoding.md R86 to R89). -/

namespace Sys2Proof.Machine

/-- `din @k <bytes>` (R86): the bytes into DIN[k], DIN[k+1], … in order. There is no DIN byte beyond 63, so there
is no action for one (the assembler rejects such a line, log 13). -/
def dinActions (k : Nat) (d : List Byte) : List HostAction :=
  match d with
  | [] => []
  | b :: rest => if h : k < 64 then .writeDin ⟨k, h⟩ b :: dinActions (k + 1) rest else []

/-- Issue a command by its word (R85). -/
def command (i : Instr) : HostAction := .issue (encode i)

/-- One pair `din …` and `UPDATE m` of R87's expansion. -/
def updateChunk (c : List Byte) : List HostAction :=
  dinActions 0 c ++ [command (.update (BitVec.ofNat 7 c.length))]

/-- The k-th chunk d[64k .. min(64k+64, n)) of R87. -/
def chunkAt (d : List Byte) (k : Nat) : List Byte := (d.drop (64 * k)).take 64

/-- UPDATEB d (R87): `UPDATE 0` for no bytes, else ceil(n/64) pairs. -/
def updateB (d : List Byte) : List HostAction :=
  if d = [] then [command (.update 0)]
  else (List.range ((d.length + 63) / 64)).flatMap fun k => updateChunk (chunkAt d k)

/-- The response of an expansion (R87): OK if every command of it answered OK, else the first that did not. -/
def expansionResponse (rs : List Response) : Response := (rs.find? fun r => r != .ok).getD .ok

/-- DIGESTN in1, …, inN (R89). -/
def digestN (ins : List (List Byte)) : List HostAction :=
  [command .begin] ++ ins.flatMap updateB ++ [command .result, .readDigest]

/-- DIGEST2 in1, in2 (R88). -/
def digest2 (in1 in2 : List Byte) : List HostAction :=
  [command .begin] ++ updateB in1 ++ updateB in2 ++ [command .result, .readDigest]

end Sys2Proof.Machine
end

