-- ==== Sys2Proof/Machine/Assembler.lean ====
section
/-! DEFINITION. The assembler of 30_encoding.md R85 to R89: one line of program text to the host actions it stands
for, or nothing where the line is not of the syntax. What R85 and R86 do not settle is log 13. -/

namespace Sys2Proof.Machine

/-- What a line of text is made of. -/
inductive Token where
  | word (cs : List Char)
  | text (cs : List Char)
  | comma
  deriving DecidableEq, Repr

/-- Where the reader of a line stands: between tokens, in a word, or in a quoted string (read so far, last first). -/
inductive LexMode where
  | between
  | inWord (seen : List Char)
  | inText (seen : List Char)
  deriving DecidableEq, Repr

/-- The tokens of a line; a `;` outside a quoted string starts a comment (R85). DESIGN CHOICE, safe (log 13): R86 is
silent on escapes inside a quoted string, and there are none. A backslash is a literal character, and the first double
quote after the opening one ends the string. -/
def lexLine (cs : List Char) (m : LexMode) : Option (List Token) :=
  match cs, m with
  | [], .between => some []
  | [], .inWord seen => some [.word seen.reverse]
  | [], .inText _ => none
  | c :: rest, .between =>
    if c = ';' then some []
    else if c = ' ' ∨ c = '\t' then lexLine rest .between
    else if c = ',' then (lexLine rest .between).map (Token.comma :: ·)
    else if c = '"' then lexLine rest (.inText [])
    else lexLine rest (.inWord [c])
  | c :: rest, .inWord seen =>
    if c = ';' then some [.word seen.reverse]
    else if c = ' ' ∨ c = '\t' then (lexLine rest .between).map (Token.word seen.reverse :: ·)
    else if c = ',' then
      (lexLine rest .between).map fun ts => Token.word seen.reverse :: Token.comma :: ts
    else lexLine rest (.inWord (c :: seen))
  | c :: rest, .inText seen =>
    if c = '"' then (lexLine rest .between).map (Token.text seen.reverse :: ·)
    else lexLine rest (.inText (c :: seen))

/-- The word `cs` is the keyword `k`, in any case. R85 says so of the command mnemonics. DESIGN CHOICE, safe (log 13): the
host actions `din` and `read` (R86), the port names and the pseudo-commands (R87 to R89), of which the spec does not say
it, are read so too. -/
def isKeyword (cs : List Char) (k : String) : Bool := cs.map Char.toLower == k.toList

/-- The value of a decimal digit. -/
def decimalDigit (c : Char) : Option Nat :=
  if '0'.toNat ≤ c.toNat ∧ c.toNat ≤ '9'.toNat then some (c.toNat - '0'.toNat) else none

/-- The value of a hexadecimal digit, either case. -/
def hexDigit (c : Char) : Option Nat :=
  let d := c.toLower
  if 'a'.toNat ≤ d.toNat ∧ d.toNat ≤ 'f'.toNat then some (d.toNat - 'a'.toNat + 10) else decimalDigit c

/-- A number in a base, most significant digit first, from the value read so far. -/
def digitsValue (digit : Char → Option Nat) (base acc : Nat) (cs : List Char) : Option Nat :=
  match cs with
  | [] => some acc
  | c :: rest =>
    match digit c with
    | some v => digitsValue digit base (base * acc + v) rest
    | none => none

/-- A decimal integer: at least one digit, leading zeros allowed (DESIGN CHOICE, safe, log 13). -/
def decimalValue (cs : List Char) : Option Nat := if cs = [] then none else digitsValue decimalDigit 10 0 cs

/-- The digits after the optional `0x`. -/
def hexBody (cs : List Char) : List Char :=
  match cs with
  | '0' :: 'x' :: rest => rest
  | '0' :: 'X' :: rest => rest
  | _ => cs

/-- The bytes of a hex string, in written order: two digits a byte (R86). DESIGN CHOICE, safe (log 13): no digits are no
bytes, and an odd digit is refused. -/
def hexPairs (cs : List Char) : Option (List Byte) :=
  match cs with
  | [] => some []
  | [_] => none
  | a :: b :: rest =>
    match hexDigit a, hexDigit b, hexPairs rest with
    | some x, some y, some bs => some (BitVec.ofNat 8 (16 * x + y) :: bs)
    | _, _, _ => none

/-- The bytes of a quoted ASCII string (R86). DESIGN CHOICE, safe (log 13): every character below 128 stands for its
own byte, control characters among them. -/
def asciiBytes (cs : List Char) : Option (List Byte) :=
  if cs.all (fun c => c.toNat < 128) then some (cs.map fun c => BitVec.ofNat 8 c.toNat) else none

/-- `<bytes>` (R86). -/
def bytesOperand (t : Token) : Option (List Byte) :=
  match t with
  | .text cs => asciiBytes cs
  | .word cs => hexPairs (hexBody cs)
  | .comma => none

/-- `<in1>, <in2>, …`, one or more. -/
def bytesList (ts : List Token) : Option (List (List Byte)) :=
  match ts with
  | [t] => (bytesOperand t).map fun d => [d]
  | t :: .comma :: rest =>
    match bytesOperand t, bytesList rest with
    | some d, some ds => some (d :: ds)
    | _, _ => none
  | _ => none

/-- `UPDATE <n>`, n a decimal integer 0..127 (R85). -/
def assembleUpdate (cs : List Char) : Option (List HostAction) :=
  match decimalValue cs with
  | some n => if n ≤ 127 then some [command (.update (BitVec.ofNat 7 n))] else none
  | none => none

/-- `.word <hex>`: the 32-bit word as given, legal or not (R85). DESIGN CHOICE, safe (log 13): R85 is silent on the number
of digits, and any number from one up is taken whose value is below 2^32. -/
def assembleWord (cs : List Char) : Option (List HostAction) :=
  if hexBody cs = [] then none
  else
    match digitsValue hexDigit 16 0 (hexBody cs) with
    | some v => if v < 2 ^ 32 then some [.issue (BitVec.ofNat 32 v)] else none
    | none => none

/-- `din` at byte k; every byte must have a place in DIN. -/
def assembleDin (k : Nat) (t : Token) : Option (List HostAction) :=
  match bytesOperand t with
  | some d => if k + d.length ≤ 64 then some (dinActions k d) else none
  | none => none

/-- A line that starts with the word `w`, with the tokens after it (R85 to R89). -/
def assembleStatement (w : List Char) (ts : List Token) : Option (List HostAction) :=
  if isKeyword w "begin" then (if ts = [] then some [command .begin] else none)
  else if isKeyword w "result" then (if ts = [] then some [command .result] else none)
  else if isKeyword w "update" then
    match ts with
    | [.word n] => assembleUpdate n
    | _ => none
  else if isKeyword w ".word" then
    match ts with
    | [.word n] => assembleWord n
    | _ => none
  else if isKeyword w "din" then
    match ts with
    | [.word ('@' :: k), t] =>
      match decimalValue k with
      | some k => assembleDin k t
      | none => none
    | [t] => assembleDin 0 t
    | _ => none
  else if isKeyword w "read" then
    match ts with
    | [.word p] =>
      if isKeyword p "status" then some [.readStatus]
      else if isKeyword p "digest" then some [.readDigest]
      else none
    | _ => none
  else if isKeyword w "updateb" then
    match ts with
    | [t] => (bytesOperand t).map updateB
    | _ => none
  else if isKeyword w "digest2" then
    match bytesList ts with
    | some [a, b] => some (digest2 a b)
    | _ => none
  else if isKeyword w "digestn" then
    if ts = [] then some (digestN []) else (bytesList ts).map digestN
  else none

/-- One line of a program. DESIGN CHOICE, safe (log 13): the spec is silent on a line with no command, and such a line,
blank or a comment only, stands for no action. -/
def assembleLine (line : String) : Option (List HostAction) :=
  match lexLine line.toList .between with
  | some [] => some []
  | some (.word w :: ts) => assembleStatement w ts
  | _ => none

/-- A program, one command or host action a line (R85, R86). DESIGN CHOICE, safe (log 13): one line that is not of the
syntax leaves the whole program without a reading. -/
def assemble (lines : List String) : Option (List HostAction) :=
  match lines with
  | [] => some []
  | l :: rest =>
    match assembleLine l, assemble rest with
    | some a, some b => some (a ++ b)
    | _, _ => none

end Sys2Proof.Machine
end

