-- ==== Sys2Proof/Machine/Platform.lean ====
section
/-! DEFINITION. A platform of ENGINE_COUNT engines, each with its own complete state and its own ports, sharing
nothing (60_exceptions.md R194). -/

namespace Sys2Proof.Machine

/-- The engines of a platform, by position. They have no identifiers of their own (R194). -/
abbrev Platform := List State

/-- Every engine right after hardware reset; ENGINE_COUNT of them. -/
def platformReset : Platform := List.replicate Config.engineCount State.reset

/-- One step of the k-th engine: the others have no part in it (R194). DESIGN CHOICE, safe (log 19): a model fault of
that engine ends the whole platform's run. The spec speaks of a fault in the run of one engine (R13, R208) and not of a
platform. -/
def platformStep (p : Platform) (k : Fin p.length) : Host.Outcome Platform Fault Refusal :=
  match step p[k] with
  | .next t => .next (p.set k.val t)
  | .fault r => .fault r
  | .refused r => .refused r

end Sys2Proof.Machine
end

