-- ==== Sys2Proof/Machine/Reference.lean ====
section
/-! DEFINITION. The reference function MD5(S) of 40_context_ops.md R133: the whole message at once, with no
buffer, no counter and no phase. Nothing in the machine calls it; claims compare the machine with it. -/

namespace Sys2Proof.Machine

/-- The padded message P of R133. -/
def paddedMessage (s : List Byte) : List Byte :=
  s ++ [0x80] ++ zeros (((55 - (s.length : Int)) % 64).toNat) ++ le64 (BitVec.ofNat 64 (8 * s.length))

/-- `Compress` chained over the first n whole blocks of a byte sequence, from a given value (the loop of R133). -/
def chainBlocks (h : Hash) (p : List Byte) (n : Nat) : Hash :=
  (List.range n).foldl (fun h k => compress h (blockAt p k)) h

/-- The chain from the IV (R133). -/
def hashBlocks (p : List Byte) (n : Nat) : Hash := chainBlocks iv p n

/-- MD5(S) (R133). -/
def md5 (s : List Byte) : Digest :=
  serialize (hashBlocks (paddedMessage s) ((paddedMessage s).length / 64))

end Sys2Proof.Machine
end

