-- ==== Sys2Proof/Safety.lean ====
section
/-! DEFINITION. The terms in which claims speak of states and runs: an open context, written DIN, an error-free
engine, a trustworthy digest (70_reset_and_hazards.md R206), a run and its success (R208), the message a context has
absorbed (40_context_ops.md R132, R133), the invariants of the machine, and when two states look the same to the host. -/

namespace Sys2Proof.Machine

/-- PHASE is FRESH or ABSORBING: UPDATE and RESULT are accepted (R130). -/
abbrev ContextOpen (s : State) : Prop := s.phase = .fresh ∨ s.phase = .absorbing

/-- PHASE is IDLE or FINALIZED: UPDATE and RESULT are misuse (R182). -/
abbrev ContextClosed (s : State) : Prop := s.phase = .idle ∨ s.phase = .finalized

/-- The host has written DIN[0..n) since reset: its duty before UPDATE n (R197, R203). -/
abbrev DinWritten (n : Nat) (s : State) : Prop := ∀ k, k < n → (memRead s.din k).isSome = true

/-- STATUS[10:8] = 0: no command since reset was answered with an error (R206, R208). -/
abbrev ErrorFree (s : State) : Prop := (statusWord s).extractLsb' 8 3 = 0

/-- The host performs these actions, in order, from this state (R208); a model fault ends the run. -/
def runActions (acts : List HostAction) (s : State) : Host.Outcome State Fault Refusal :=
  Host.Core.run Sys2Proof.core acts.length { s with pending := acts }

/-- A run from reset in which every action was taken and no model fault occurred; its observation is `t.obs`
(R208). -/
def RunSucceeds (acts : List HostAction) (t : State) : Prop := runActions acts State.reset = .next t

/-- The state an outcome leads to, if it is one. -/
def nextState? (o : Host.Outcome State Fault Refusal) : Option State :=
  match o with
  | .next t => some t
  | .fault _ => none
  | .refused _ => none

/-- What every step keeps: DIN in its canonical form; BLEN = TLEN mod 64 while a context is open (R26); DVALID
exactly in FINALIZED (R34, R130); a valid DIGEST serializes H (R124, R125); the sticky bit of the code in LAST is set
(R32, R33). -/
structure State.Inv (s : State) : Prop where
  dinWf : s.din.wf
  blenTlen : ContextOpen s → s.blen.toNat = s.tlen.toNat % 64
  dvalidPhase : s.dvalid = true ↔ s.phase = .finalized
  digestHash : s.dvalid = true → s.digest = serialize s.h
  lastSticky : stickyOf s.last s = true

/-- The open context has absorbed exactly the message `m`: H is the chain over its whole blocks, BUF[0..BLEN) its
last `m.length mod 64` bytes, TLEN its length modulo 2^64 (R23, R25, R26, R110). -/
structure Absorbed (m : List Byte) (s : State) : Prop where
  isOpen : ContextOpen s
  hash : s.h = hashBlocks m (m.length / 64)
  blen : s.blen.toNat = m.length % 64
  valid : bufValid s = m.drop (64 * (m.length / 64))
  tlen : s.tlen = BitVec.ofNat 64 m.length

/-- An open context has absorbed some message, and a valid DIGEST is the MD5 of some message. -/
structure State.HashesMessage (s : State) : Prop where
  absorbed : ContextOpen s → ∃ m, Absorbed m s
  digest : s.dvalid = true → ∃ m, s.digest = md5 m

/-- The parts of the state R132 compares: H, BLEN, BUF[0..BLEN) and TLEN. -/
structure SameContext (s t : State) : Prop where
  hash : s.h = t.h
  blen : s.blen = t.blen
  valid : bufValid s = bufValid t
  tlen : s.tlen = t.tlen

/-- The bytes the next step absorbs: those an accepted UPDATE samples, else none (R110). -/
def absorbedNext (s : State) : List Byte :=
  match s.pending with
  | .issue w :: _ =>
    match decode w with
    | .ok (.update n) =>
      if ContextClosed s ∨ 64 < updateLength n then [] else (dinSample (updateLength n) s).getD []
    | _ => []
  | _ => []

/-- The next step starts a context or ends one: BEGIN, an accepted RESULT, or a hardware reset. -/
def endsContext (s : State) : Bool :=
  match s.pending with
  | .issue w :: _ =>
    match decode w with
    | .ok .begin => true
    | .ok .result => decide (ContextOpen s)
    | _ => false
  | .reset :: _ => true
  | _ => false

/-- k steps inside one context, with the bytes they absorb: accepted UPDATEs, rejected commands and host actions that
issue none, in any order (R132). From a FINALIZED state it is the steps up to the next BEGIN or reset. Nothing where a step faults or leaves the context. -/
def sessionRun (k : Nat) (s : State) : Option (List Byte × State) :=
  match k with
  | 0 => some ([], s)
  | k + 1 =>
    if endsContext s then none
    else
      match step s with
      | .next t => (sessionRun k t).map fun r => (absorbedNext s ++ r.1, r.2)
      | .fault _ => none
      | .refused _ => none

/-- The responses the host has got from `s` to a later state `t` (R208: the observation only grows). -/
def responsesSince (s t : State) : List Response :=
  (t.obs.drop s.obs.length).filterMap fun o =>
    match o with
    | .response r => some r
    | .status _ => none
    | .digest _ => none

/-- No command from `s` to a later state `t` was answered with an error: what a host that checks LAST after each command
finds (R206). -/
abbrev NoErrorBetween (s t : State) : Prop := ∀ r ∈ responsesSince s t, r = .ok

/-- A whole session (R206): a BEGIN leads to `s`, the k steps after it stay in its context and absorb `m`, and an
accepted RESULT then leads to `t`. -/
structure Session (k : Nat) (m : List Byte) (s t : State) : Prop where
  begun : ∃ r rest, r.pending = command .begin :: rest ∧ step r = .next s
  finished : ∃ u rest, sessionRun k s = some (m, u) ∧ u.pending = command .result :: rest ∧ step u = .next t

/-- The session that wrote the DIGEST of `t` met no error between its BEGIN and its RESULT, whatever happened before it
and after it (R206). After its RESULT no BEGIN and no reset has taken place: those alone end a finished context. -/
def SessionErrorFree (t : State) : Prop :=
  ∃ k m s u, Session k m s u ∧ NoErrorBetween s u ∧ ∃ j b, sessionRun j u = some (b, t)

/-- The digest the host may trust (R206), by either check of that rule: STATUS[10:8] = 0 as it is read, or no error in
its session. -/
def DigestTrusted (t : State) : Prop := t.dvalid = true ∧ (ErrorFree t ∨ SessionErrorFree t)

/-- How many bytes a host action asks the engine to absorb: the LEN of an UPDATE (R73). -/
def bytesAsked (a : HostAction) : Nat :=
  match a with
  | .issue w =>
    match decode w with
    | .ok (.update n) => updateLength n
    | _ => 0
  | .writeDin _ _ => 0
  | .readStatus => 0
  | .readDigest => 0
  | .reset => 0

/-- How many bytes the host's next k actions ask the engine to absorb. -/
def sessionBytesAsked (k : Nat) (s : State) : Nat := ((s.pending.take k).map bytesAsked).sum

/-- Two states the host can never tell apart: equal in everything a port shows, in DIN, in the host's own plans
and observation, and, while a context is open, in H, BLEN, TLEN and the valid bytes of BUF; DIGEST counts only while
it is valid. H, BUF, BLEN, TLEN and DIGEST may differ wherever the spec calls them unspecified (R23, R40, R125), and
so may the draw count. -/
structure SameToHost (s t : State) : Prop where
  phase : s.phase = t.phase
  dvalid : s.dvalid = t.dvalid
  last : s.last = t.last
  errIllegalS : s.errIllegalS = t.errIllegalS
  errMisuseS : s.errMisuseS = t.errMisuseS
  errLengthS : s.errLengthS = t.errLengthS
  din : s.din = t.din
  pending : s.pending = t.pending
  obs : s.obs = t.obs
  context : ContextOpen s → SameContext s t
  digest : s.dvalid = true → s.digest = t.digest

end Sys2Proof.Machine
end

