-- ==== Sys2Proof/Certificates/Slice0/Obligations.lean ====
section
/-! DEFINITION. The statements for the provers, in the order of spec/: encoding, the command frame, BEGIN, UPDATE,
RESULT, the phase machine, STATUS and the ports, the compression function, reset, and the laws of the whole machine. -/

open Sys2Proof Sys2Proof.Machine

/-! ### Encoding (30_encoding.md) -/

/-- Words of 95_test_vectors.md section 2 decode as that table says (R75, R76, R77). -/
def Obligations.DecodesTheSpecsWords : Prop :=
  decode 0x00000001 = .ok .begin ∧ decode 0x00000002 = .ok (.update 0) ∧
  decode 0x00000102 = .ok (.update 1) ∧ decode 0x00000302 = .ok (.update 3) ∧
  decode 0x00003D02 = .ok (.update 61) ∧ decode 0x00004002 = .ok (.update 64) ∧
  decode 0x00004102 = .ok (.update 65) ∧ decode 0x00007F02 = .ok (.update 127) ∧
  decode 0x00000003 = .ok .result ∧
  decode 0x00000101 = .error .lengthField ∧ decode 0x00000103 = .error .lengthField ∧
  decode 0x00008001 = .error .reservedBits ∧ decode 0x00008302 = .error .reservedBits ∧
  decode 0x80000002 = .error .reservedBits ∧ decode 0x00000000 = .error .unassignedOpcode ∧
  decode 0x00000004 = .error .unassignedOpcode ∧ decode 0x00000081 = .error .unassignedOpcode

/-- R74: RSV = w[31:15] must be zero in every command; a word with any RSV bit set is illegal, whatever its OPC. -/
def Obligations.ReservedBitMakesWordIllegal : Prop :=
  ∀ (w : Word) (k : Nat), 15 ≤ k → k ≤ 31 → w.getLsbD k = true → ∀ i, decode w ≠ .ok i

/-- Decoding and encoding are inverse to each other, at every value of the LEN field (R75, R76, R85). -/
def Obligations.DecodeAndEncodeAgree : Prop :=
  ∀ (w : Word) (i : Instr), decode w = .ok i ↔ w = encode i

/-- The decoder of R75 accepts exactly the words that match a row of the opcode table, and those are exactly BEGIN's,
UPDATE's 128 and RESULT's (R76). -/
def Obligations.LegalWordsAreTheTablesRows : Prop :=
  ∀ w : Word,
    ((∃ i, decode w = .ok i) ↔ wellFormedWord w = true) ∧
    (wellFormedWord w = true ↔
      w = 0x00000001#32 ∨ (∃ n : Nat, n ≤ 127 ∧ w = BitVec.ofNat 32 (2 + 256 * n)) ∨ w = 0x00000003#32)

/-! ### The command frame (40_context_ops.md R100, 60_exceptions.md) -/

/-- When the host's next action is a word that decodes to i, the step is exec of i with that action taken (R100). -/
def Obligations.StepRunsDecodedCommand : Prop :=
  ∀ (s : State) (w : Word) (i : Instr) (rest : List HostAction),
    s.pending = .issue w :: rest → decode w = .ok i → step s = exec i { s with pending := rest }

/-- With no host action pending the engine waits and holds its state (R196, R201; that `step` then answers the same
state is the model's choice, log 1). -/
def Obligations.IdleEngineHoldsItsState : Prop :=
  ∀ s : State, s.pending = [] → step s = .next s

/-- R77, R181: which words are illegal, exactly, and that one answers ERR_ILLEGAL in every phase and changes LAST and
ERR_ILLEGAL_S only. -/
def Obligations.IllegalWordChangesLastAndStickyOnly : Prop :=
  (∀ w : Word, (∀ i, decode w ≠ .ok i) ↔
    ((w.extractLsb' 0 8 ≠ 0x01#8 ∧ w.extractLsb' 0 8 ≠ 0x02#8 ∧ w.extractLsb' 0 8 ≠ 0x03#8) ∨
      w.extractLsb' 15 17 ≠ 0#17 ∨
      ((w.extractLsb' 0 8 = 0x01#8 ∨ w.extractLsb' 0 8 = 0x03#8) ∧ w.extractLsb' 8 7 ≠ 0#7))) ∧
  (∀ (s : State) (w : Word) (rest : List HostAction), s.pending = .issue w :: rest → (∀ i, decode w ≠ .ok i) →
    step s = .next { s with
      last := .errIllegal, errIllegalS := true, obs := s.obs ++ [.response .errIllegal], pending := rest })

/-- R181 to R184: which response each command gets, exactly; with an error the engine records nothing but LAST and the
sticky bits. -/
def Obligations.ResponseCodesExactly : Prop :=
  ∀ (s t : State) (w : Word) (rest : List HostAction), s.pending = .issue w :: rest → step s = .next t →
    (t.last = .errIllegal ↔ ∀ i, decode w ≠ .ok i) ∧
    (t.last = .errMisuse ↔
      ((∃ n, decode w = .ok (.update n)) ∨ decode w = .ok .result) ∧ (s.phase = .idle ∨ s.phase = .finalized)) ∧
    (t.last = .errLength ↔
      (∃ n, decode w = .ok (.update n) ∧ 65 ≤ n.toNat) ∧ (s.phase = .fresh ∨ s.phase = .absorbing)) ∧
    (t.last = .ok ↔
      decode w = .ok .begin ∨
      ((∃ n, decode w = .ok (.update n) ∧ n.toNat ≤ 64) ∧ (s.phase = .fresh ∨ s.phase = .absorbing)) ∨
      (decode w = .ok .result ∧ (s.phase = .fresh ∨ s.phase = .absorbing))) ∧
    (t.last ≠ .ok → t = { s with
      last := t.last, errIllegalS := t.errIllegalS, errMisuseS := t.errMisuseS, errLengthS := t.errLengthS,
      obs := t.obs, pending := rest })

/-- R185: a command answered with an error sets LAST and the matching sticky bit and changes nothing else. -/
def Obligations.ErrorResponseChangesNothingElse : Prop :=
  ∀ (s t : State) (w : Word) (rest : List HostAction),
    s.pending = .issue w :: rest → step s = .next t → t.last ≠ .ok →
    t = { s with
      last := t.last
      errIllegalS := s.errIllegalS || t.last == .errIllegal
      errMisuseS := s.errMisuseS || t.last == .errMisuse
      errLengthS := s.errLengthS || t.last == .errLength
      obs := s.obs ++ [.response t.last]
      pending := rest }

/-- R186: of several errors only the first of illegal, misuse, length is reported and only its sticky bit set;
unwritten DIN is looked at only for an accepted UPDATE. -/
def Obligations.FirstErrorWins : Prop :=
  ∀ (s : State) (w : Word) (rest : List HostAction), s.pending = .issue w :: rest →
    ((∀ i, decode w ≠ .ok i) →
      step s = .next { s with
        last := .errIllegal, errIllegalS := true, obs := s.obs ++ [.response .errIllegal], pending := rest }) ∧
    (∀ i, decode w = .ok i → i ≠ .begin → ContextClosed s →
      step s = .next { s with
        last := .errMisuse, errMisuseS := true, obs := s.obs ++ [.response .errMisuse], pending := rest }) ∧
    (∀ n, decode w = .ok (.update n) → ¬ ContextClosed s → 64 < n.toNat →
      step s = .next { s with
        last := .errLength, errLengthS := true, obs := s.obs ++ [.response .errLength], pending := rest }) ∧
    (∀ f, step s = .fault f →
      ∃ n, decode w = .ok (.update n) ∧ ContextOpen s ∧ n.toNat ≤ 64 ∧ ¬ DinWritten n.toNat s)

/-- R32: every command writes LAST with its response (and answers it to the host), no other action but reset writes
LAST, reset sets it to 0, and its codes are those of R180. -/
def Obligations.LastHoldsTheLatestResponse : Prop :=
  (∀ (s t : State) (w : Word) (rest : List HostAction), s.pending = .issue w :: rest → step s = .next t →
    t.obs = s.obs ++ [.response t.last]) ∧
  (∀ (s t : State) (a : HostAction) (rest : List HostAction), s.pending = a :: rest → step s = .next t →
    (∀ w, a ≠ .issue w) → t.last = if a = .reset then .ok else s.last) ∧
  (∀ s : State, (statusWord s).extractLsb' 4 2 =
    match s.last with
    | .ok => 0
    | .errIllegal => 1
    | .errMisuse => 2
    | .errLength => 3)

/-- R33: a sticky bit is set by a command that ends with the corresponding error and cleared by a hardware reset
only; no other action changes it. -/
def Obligations.StickyBitsClearedOnlyByReset : Prop :=
  ∀ (s t : State) (a : HostAction) (rest : List HostAction), s.pending = a :: rest → step s = .next t →
    (a = .reset → t.errIllegalS = false ∧ t.errMisuseS = false ∧ t.errLengthS = false) ∧
    (a ≠ .reset → ∀ w, a = .issue w →
      t.errIllegalS = (s.errIllegalS || t.last == .errIllegal) ∧
      t.errMisuseS = (s.errMisuseS || t.last == .errMisuse) ∧
      t.errLengthS = (s.errLengthS || t.last == .errLength)) ∧
    (a ≠ .reset → (∀ w, a ≠ .issue w) →
      t.errIllegalS = s.errIllegalS ∧ t.errMisuseS = s.errMisuseS ∧ t.errLengthS = s.errLengthS)

/-- R206: STATUS[10:8] = 0 says that no sticky bit is set; while it stays 0 across an action other than reset it was 0
before, and a command so performed was accepted: nothing the host meant to absorb was dropped. -/
def Obligations.ErrorFreeStatusMeansEveryCommandAccepted : Prop :=
  (∀ s : State, ErrorFree s ↔ s.errIllegalS = false ∧ s.errMisuseS = false ∧ s.errLengthS = false) ∧
  (∀ (s t : State) (a : HostAction) (rest : List HostAction), s.pending = a :: rest → step s = .next t →
    a ≠ .reset → ErrorFree t → ErrorFree s ∧ ∀ w, a = .issue w → t.last = .ok ∧ ∃ i, decode w = .ok i)

/-! ### BEGIN -/

/-- R101, R202: BEGIN is accepted in every phase, writes H, BLEN, TLEN, DVALID, PHASE and LAST, and leaves the sticky
bits, the bytes of DIGEST, every byte of DIN and the host's plans alone. (BUF is don't-care, so nothing is said of it.) -/
def Obligations.BeginStartsContext : Prop :=
  (∀ s : State, ∃ t, exec .begin s = .next t ∧
    t.h = ⟨0x67452301, 0xEFCDAB89, 0x98BADCFE, 0x10325476⟩ ∧ t.blen = 0 ∧ t.tlen = 0 ∧
    t.dvalid = false ∧ t.phase = .fresh ∧ t.last = .ok ∧ t.obs = s.obs ++ [.response .ok] ∧
    t.errIllegalS = s.errIllegalS ∧ t.errMisuseS = s.errMisuseS ∧ t.errLengthS = s.errLengthS ∧
    t.digest = s.digest ∧ t.pending = s.pending ∧ ∀ a, memRead t.din a = memRead s.din a) ∧
  ∃ t, exec .begin State.reset = .next t ∧ statusWord t = 0x00000001

/-! ### UPDATE -/

/-- R102: in IDLE and FINALIZED an UPDATE of any length is rejected with ERR_MISUSE and nothing is absorbed. -/
def Obligations.UpdateWithoutContextIsMisuse : Prop :=
  ∀ (n : BitVec 7) (s : State), s.phase = .idle ∨ s.phase = .finalized →
    exec (.update n) s = .next { s with
      last := .errMisuse, errMisuseS := true, obs := s.obs ++ [.response .errMisuse] }

/-- R103: in FRESH and ABSORBING an UPDATE of more than 64 bytes is rejected with ERR_LENGTH; only LAST and
ERR_LENGTH_S change. -/
def Obligations.UpdateTooLongIsLengthError : Prop :=
  ∀ (n : BitVec 7) (s : State), s.phase = .fresh ∨ s.phase = .absorbing → 64 < n.toNat →
    exec (.update n) s = .next { s with
      last := .errLength, errLengthS := true, obs := s.obs ++ [.response .errLength] }

/-- R110, R112 and the corner cases of R105: an UPDATE of n <= 64 written bytes completes. It appends DIN[0..n) to the
valid bytes; when 64 are reached it compresses exactly one block and keeps the rest. With its frame. -/
def Obligations.UpdateAbsorbsDinBytes : Prop :=
  ∀ (n : BitVec 7) (s : State), ContextOpen s → n.toNat ≤ 64 → DinWritten n.toNat s →
    ∃ (d : List Byte) (t : State), exec (.update n) s = .next t ∧
      d.length = n.toNat ∧ (∀ k, k < n.toNat → memRead s.din k = d[k]?) ∧
      (if s.blen.toNat + n.toNat < 64 then
        t.h = s.h ∧ t.blen.toNat = s.blen.toNat + n.toNat ∧ bufValid t = bufValid s ++ d
      else
        t.h = compress s.h (blockAt (bufValid s ++ d) 0) ∧
        t.blen.toNat = s.blen.toNat + n.toNat - 64 ∧ bufValid t = (bufValid s ++ d).drop 64) ∧
      t.phase = .absorbing ∧ t.last = .ok ∧ t.obs = s.obs ++ [.response .ok] ∧
      t.dvalid = s.dvalid ∧ t.errIllegalS = s.errIllegalS ∧ t.errMisuseS = s.errMisuseS ∧
      t.errLengthS = s.errLengthS ∧ t.digest = s.digest ∧ t.pending = s.pending ∧
      ∀ a, memRead t.din a = memRead s.din a

/-- R111: an accepted UPDATE(n) sets TLEN to (TLEN + n) mod 2^64, a rejected one leaves it unchanged. -/
def Obligations.TlenCountsAbsorbedBytes : Prop :=
  ∀ (n : BitVec 7) (s t : State), exec (.update n) s = .next t →
    t.tlen.toNat = if t.last = .ok then (s.tlen.toNat + n.toNat) % 2 ^ 64 else s.tlen.toNat

/-- R113: UPDATE 0 in FRESH or ABSORBING is accepted, needs no written DIN, and changes PHASE and LAST only. -/
def Obligations.UpdateZeroChangesPhaseAndLastOnly : Prop :=
  ∀ s : State, s.phase = .fresh ∨ s.phase = .absorbing →
    exec (.update 0) s = .next { s with
      phase := .absorbing, last := .ok, obs := s.obs ++ [.response .ok] }

/-- R29 (D17): an UPDATE faults exactly when it is accepted and one of DIN[0..n) is unwritten. -/
def Obligations.UpdateFaultsOnlyOnUnwrittenDin : Prop :=
  ∀ (n : BitVec 7) (s : State) (f : Fault),
    exec (.update n) s = .fault f ↔
      f = .dinUnwritten ∧ ContextOpen s ∧ n.toNat ≤ 64 ∧ ∃ k, k < n.toNat ∧ memRead s.din k = none

/-! ### RESULT -/

/-- R120, R182: RESULT in IDLE or FINALIZED is rejected with ERR_MISUSE; the earlier DIGEST and DVALID stand. -/
def Obligations.ResultWithoutContextIsMisuse : Prop :=
  ∀ s : State, s.phase = .idle ∨ s.phase = .finalized →
    exec .result s = .next { s with
      last := .errMisuse, errMisuseS := true, obs := s.obs ++ [.response .errMisuse] }

/-- R55, R125 and the status part of R120: RESULT in FRESH or ABSORBING completes; H holds the final chaining value
and DIGEST its words, word 0 first, each least significant byte first. With its frame. (BUF, BLEN and TLEN are
unspecified afterwards, so nothing is said of them.) -/
def Obligations.ResultWritesDigest : Prop :=
  ∀ s : State, ContextOpen s → ∃ t, exec .result s = .next t ∧
    t.h = finalHash s ∧
    (∀ (j : Fin 4) (k : Fin 4),
      t.digest[4 * j.val + k.val]'(by omega) = (hashWord t.h j).extractLsb' (8 * k.val) 8) ∧
    t.dvalid = true ∧ t.phase = .finalized ∧ t.last = .ok ∧ t.obs = s.obs ++ [.response .ok] ∧
    t.errIllegalS = s.errIllegalS ∧ t.errMisuseS = s.errMisuseS ∧ t.errLengthS = s.errLengthS ∧
    t.pending = s.pending ∧ ∀ a, memRead t.din a = memRead s.din a

/-- R122: after the BLEN buffered bytes come one byte 0x80, z = (55 - BLEN) mod 64 zero bytes and the 8 length bytes; z
is the least count that makes the padded length a multiple of 64. -/
def Obligations.PaddingIsTheLeast : Prop :=
  ∀ s : State, ∃ z : Nat,
    (z : Int) = (55 - (s.blen.toNat : Int)) % 64 ∧
    tailBytes s = s.buf.toList.take s.blen.toNat ++ [0x80] ++ List.replicate z 0x00 ++ le64 (bitLength s.tlen) ∧
    (le64 (bitLength s.tlen)).length = 8 ∧
    (s.blen.toNat + 1 + z + 8) % 64 = 0 ∧
    (∀ y : Nat, (s.blen.toNat + 1 + y + 8) % 64 = 0 → z ≤ y) ∧
    (s.blen.toNat ≤ 55 → z = 55 - s.blen.toNat) ∧ (56 ≤ s.blen.toNat → z = 119 - s.blen.toNat)

/-- R123: the tail is one block for BLEN <= 55 and two for BLEN >= 56, compressed in order; with the boundary lengths
the rule names. -/
def Obligations.FinalBlocksAreOneOrTwo : Prop :=
  ∀ s : State,
    (s.blen.toNat ≤ 55 →
      (tailBytes s).length = 64 ∧ finalHash s = compress s.h (blockAt (tailBytes s) 0)) ∧
    (56 ≤ s.blen.toNat →
      (tailBytes s).length = 128 ∧
      finalHash s = compress (compress s.h (blockAt (tailBytes s) 0)) (blockAt (tailBytes s) 1)) ∧
    (s.blen.toNat = s.tlen.toNat % 64 →
      (s.tlen.toNat = 55 ∨ s.tlen.toNat = 64 ∨ s.tlen.toNat = 65 → (tailBytes s).length = 64) ∧
      (s.tlen.toNat = 56 ∨ s.tlen.toNat = 63 → (tailBytes s).length = 128))

/-- R121, R54: L = (8 x TLEN) mod 2^64 = TLEN[60:0] followed by three 0 bits, stored least significant byte first; bits
TLEN[63:61] do not reach the digest. -/
def Obligations.LengthFieldIsLittleEndianBitCount : Prop :=
  (∀ v : DWord, (bitLength v).toNat = 8 * v.toNat % 2 ^ 64 ∧ bitLength v = v.extractLsb' 0 61 ++ 0#3) ∧
  (∀ (l : DWord) (k : Nat), k < 8 → (le64 l)[k]? = some (l.extractLsb' (8 * k) 8)) ∧
  (∀ (s t u : State) (v : DWord), v.extractLsb' 0 61 = s.tlen.extractLsb' 0 61 →
    exec .result s = .next t → exec .result { s with tlen := v } = .next u → t.digest = u.digest)

/-! ### The phase machine and DVALID -/

/-- R130: the whole transition table, and that a hardware reset puts PHASE in IDLE. The accepted UPDATEs have their
DIN bytes written. -/
def Obligations.PhaseTransitionTable : Prop :=
  (∀ s : State, ∃ t, exec .begin s = .next t ∧ t.phase = .fresh ∧ t.last = .ok) ∧
  (∀ (s : State) (n : BitVec 7), n.toNat ≤ 64 → DinWritten n.toNat s →
    ∃ t, exec (.update n) s = .next t ∧
      (t.phase, t.last) = match s.phase with
        | .idle => (.idle, .errMisuse)
        | .fresh => (.absorbing, .ok)
        | .absorbing => (.absorbing, .ok)
        | .finalized => (.finalized, .errMisuse)) ∧
  (∀ (s : State) (n : BitVec 7), 64 < n.toNat →
    ∃ t, exec (.update n) s = .next t ∧
      (t.phase, t.last) = match s.phase with
        | .idle => (.idle, .errMisuse)
        | .fresh => (.fresh, .errLength)
        | .absorbing => (.absorbing, .errLength)
        | .finalized => (.finalized, .errMisuse)) ∧
  (∀ s : State, ∃ t, exec .result s = .next t ∧
    (t.phase, t.last) = match s.phase with
      | .idle => (.idle, .errMisuse)
      | .fresh => (.finalized, .ok)
      | .absorbing => (.finalized, .ok)
      | .finalized => (.finalized, .errMisuse)) ∧
  (∀ (s : State) (w : Word) (rest : List HostAction), s.pending = .issue w :: rest → (∀ i, decode w ≠ .ok i) →
    ∃ t, step s = .next t ∧ t.phase = s.phase ∧ t.last = .errIllegal) ∧
  (∀ (s : State) (rest : List HostAction), s.pending = .reset :: rest →
    ∃ t, step s = .next t ∧ t.phase = .idle)

/-- R34: DVALID is set by a successful RESULT, cleared by BEGIN and by reset, and changed by nothing else. -/
def Obligations.DvalidWrittenByBeginResultReset : Prop :=
  ∀ (s t : State) (a : HostAction) (rest : List HostAction), s.pending = a :: rest → step s = .next t →
    t.dvalid =
      if a = .issue (encode .result) ∧ t.last = .ok then true
      else if a = .issue (encode .begin) ∨ a = .reset then false
      else s.dvalid

/-- R28: only a successful RESULT writes DIGEST; besides it, only a hardware reset leaves it unspecified. -/
def Obligations.DigestWrittenOnlyByResult : Prop :=
  ∀ (s t : State) (a : HostAction) (rest : List HostAction), s.pending = a :: rest → step s = .next t →
    ¬ (a = .issue (encode .result) ∧ t.last = .ok) → a ≠ .reset → t.digest = s.digest

/-! ### STATUS and the ports -/

/-- R31, R35: the STATUS word field by field, its reserved bits 0, its value after reset 0; a read returns it and has no
other effect; no host action but a command or a reset changes it (the host cannot write it). -/
def Obligations.StatusLayout : Prop :=
  (∀ s : State,
    (statusWord s).extractLsb' 0 2 =
      (match s.phase with | .idle => 0 | .fresh => 1 | .absorbing => 2 | .finalized => 3) ∧
    (statusWord s).getLsbD 2 = s.dvalid ∧
    (statusWord s).getLsbD 3 = false ∧
    (statusWord s).extractLsb' 4 2 =
      (match s.last with | .ok => 0 | .errIllegal => 1 | .errMisuse => 2 | .errLength => 3) ∧
    (statusWord s).extractLsb' 6 2 = 0 ∧
    (statusWord s).getLsbD 8 = s.errIllegalS ∧
    (statusWord s).getLsbD 9 = s.errMisuseS ∧
    (statusWord s).getLsbD 10 = s.errLengthS ∧
    (statusWord s).extractLsb' 11 21 = 0) ∧
  statusWord State.reset = 0 ∧
  (∀ (s : State) (rest : List HostAction), s.pending = .readStatus :: rest →
    step s = .next { s with obs := s.obs ++ [.status (statusWord s)], pending := rest }) ∧
  (∀ (s t : State) (a : HostAction) (rest : List HostAction), s.pending = a :: rest → (∀ w, a ≠ .issue w) →
    a ≠ .reset → step s = .next t → statusWord t = statusWord s)

/-- R28: a read of DIGEST returns its bytes with no side effect while DVALID = 1 and is a model fault otherwise. -/
def Obligations.DigestReadNeedsDvalid : Prop :=
  ∀ (s : State) (rest : List HostAction), s.pending = .readDigest :: rest →
    step s =
      if s.dvalid = true then .next { s with obs := s.obs ++ [.digest s.digest], pending := rest }
      else .fault .digestNotValid

/-- R29, R59: a DIN byte keeps its last written value until the host writes it again; writing one changes nothing else;
no command writes DIN; a reset leaves every byte unwritten. -/
def Obligations.DinHoldsWhatTheHostWrote : Prop :=
  (∀ (s : State) (k : Fin 64) (b : Byte) (rest : List HostAction), s.pending = .writeDin k b :: rest →
    ∃ m, step s = .next { s with din := m, pending := rest } ∧
      ∀ a, memRead m a = if a = k.val then some b else memRead s.din a) ∧
  (∀ (i : Instr) (s t : State), exec i s = .next t → t.din = s.din) ∧
  (∀ (s : State) (rest : List HostAction), s.pending = .reset :: rest →
    ∃ t, step s = .next t ∧ ∀ a, memRead t.din a = none)

/-! ### The compression function (44_compression.md) -/

/-- R10: rotl32 is the left rotation, for every amount the engine uses. -/
def Obligations.RotlMovesEveryBit : Prop :=
  ∀ (x : Word) (s k : Nat), 1 ≤ s → s ≤ 31 → k < 32 →
    (rotl32 x s).getLsbD k = x.getLsbD ((k + 32 - s) % 32)

/-- R141 to R144: the four round functions, bit by bit, and the examples of the rules. -/
def Obligations.RoundFunctionsBitwise : Prop :=
  (∀ (x y z : Word) (k : Nat), k < 32 →
    (f0 x y z).getLsbD k = (if x.getLsbD k then y.getLsbD k else z.getLsbD k) ∧
    (f1 x y z).getLsbD k = (if z.getLsbD k then x.getLsbD k else y.getLsbD k) ∧
    (f2 x y z).getLsbD k = ((x.getLsbD k ^^ y.getLsbD k) ^^ z.getLsbD k) ∧
    (f3 x y z).getLsbD k = (y.getLsbD k ^^ (x.getLsbD k || !z.getLsbD k))) ∧
  f0 0xEFCDAB89 0x98BADCFE 0x10325476 = 0x98BADCFE ∧ f1 0xEFCDAB89 0x98BADCFE 0x10325476 = 0x88888888 ∧
  f2 0xEFCDAB89 0x98BADCFE 0x10325476 = 0x67452301 ∧ f3 0xEFCDAB89 0x98BADCFE 0x10325476 = 0x77777777 ∧
  f3 0 0 0 = 0xFFFFFFFF

/-- R145, R53: message word j holds bytes 4j to 4j+3 of the block, the first of them lowest; with the example of R145. -/
def Obligations.MessageWordsAreLittleEndian : Prop :=
  (∀ (blk : Block) (j : Fin 16) (k : Fin 4),
    (messageWord blk j).extractLsb' (8 * k.val) 8 = blk[4 * j.val + k.val]'(by omega)) ∧
  ∀ j : Fin 16, messageWord (blockAt ([0x61, 0x62, 0x63, 0x80] ++ zeros 52 ++ le64 24) 0) j =
    if j = 0 then 0x80636261 else if j = 14 then 0x00000018 else 0

/-- R147 and the schedule of R148: 64 rows; the rotation amounts repeat the round's pattern and lie in 4..23; g(i) and the
function are those of round i / 16; g is a permutation of 0..15 within each round. -/
def Obligations.ScheduleFollowsTheFormulas : Prop :=
  schedule.length = 64 ∧
  (∀ i : Fin 64, ∀ row : StepRow, schedule[i.val]? = some row →
    row.s = ([[7, 12, 17, 22], [5, 9, 14, 20], [4, 11, 16, 23], [6, 10, 15, 21]].getD (i.val / 16) []).getD (i.val % 4) 0 ∧
    4 ≤ row.s ∧ row.s ≤ 23 ∧
    row.g.val = [i.val, (5 * i.val + 1) % 16, (3 * i.val + 5) % 16, (7 * i.val) % 16].getD (i.val / 16) 0 ∧
    row.f = [RoundFn.f0, RoundFn.f1, RoundFn.f2, RoundFn.f3].getD (i.val / 16) RoundFn.f0) ∧
  (∀ (r : Fin 4) (j : Fin 16), ∃ i : Fin 16,
    (schedule[16 * r.val + i.val]?).map StepRow.g = some j)

/-- The worked examples of R149 and R150: the first step and the whole of Compress on the padded "abc" block. -/
def Obligations.CompressOfAbcBlock : Prop :=
  let blk := blockAt ([0x61, 0x62, 0x63, 0x80] ++ zeros 52 ++ le64 24) 0
  (schedule.take 1).foldl (md5Step blk) iv = ⟨0x10325476, 0xD6D117B4, 0xEFCDAB89, 0x98BADCFE⟩ ∧
  compress iv blk = ⟨0x98500190, 0xB04FD23C, 0x7D3F96D6, 0x727FE128⟩

/-! ### Reset (70_reset_and_hazards.md) -/

/-- R40, R200: a hardware reset, from any state, and State.reset itself have PHASE IDLE, DVALID 0, LAST OK, sticky bits 0
and every DIN byte unwritten. (The values of H, BUF, BLEN, TLEN and DIGEST are unspecified: nothing is said of them.) -/
def Obligations.ResetLeavesVisibleStateClear : Prop :=
  ∀ t : State,
    (t = State.reset ∨ ∃ (s : State) (rest : List HostAction), s.pending = .reset :: rest ∧ step s = .next t) →
    t.phase = .idle ∧ t.dvalid = false ∧ t.last = .ok ∧ t.errIllegalS = false ∧ t.errMisuseS = false ∧
    t.errLengthS = false ∧ (∀ a, memRead t.din a = none) ∧ statusWord t = 0

/-- A hardware reset always completes (R200). That it keeps the host's pending actions and what the host has observed is
the model's own choice, not the spec's (DESIGN CHOICE, log 8, with log 2 for the observation). -/
def Obligations.ResetAlwaysCompletes : Prop :=
  ∀ (s : State) (rest : List HostAction), s.pending = .reset :: rest →
    ∃ t, step s = .next t ∧ t.pending = rest ∧ t.obs = s.obs

/-! ### Laws of the whole machine -/

/-- Every step keeps the invariant: DIN canonical, BLEN = TLEN mod 64 in an open context (R26), DVALID exactly in
FINALIZED, a valid DIGEST serializes H, the sticky bit of LAST's code set. -/
def Obligations.StepKeepsInvariant : Prop := ∀ s t : State, s.Inv → step s = .next t → t.Inv

/-- The invariant holds right after reset. -/
def Obligations.ResetMeetsInvariant : Prop := State.reset.Inv

/-- A BEGIN leaves the context having absorbed the empty message; an accepted UPDATE appends the bytes it sampled
(R110, R132). -/
def Obligations.UpdateExtendsTheMessage : Prop :=
  (∀ s t : State, exec .begin s = .next t → Absorbed [] t) ∧
  (∀ (m : List Byte) (s : State) (n : BitVec 7), Absorbed m s → n.toNat ≤ 64 → DinWritten n.toNat s →
    ∃ (d : List Byte) (t : State), exec (.update n) s = .next t ∧ d.length = n.toNat ∧
      (∀ k, k < n.toNat → memRead s.din k = d[k]?) ∧ Absorbed (m ++ d) t)

/-- RESULT on a context that has absorbed the message m writes MD5(m) (R120, R133). -/
def Obligations.ResultWritesMd5OfTheMessage : Prop :=
  ∀ (m : List Byte) (s : State), Absorbed m s →
    ∃ t, exec .result s = .next t ∧ t.digest = md5 m ∧ t.dvalid = true ∧ t.phase = .finalized

/-- Every step keeps: an open context has absorbed some message, whatever the chunking, and a valid DIGEST is the MD5 of
some message (R23, R26, R110, R133). -/
def Obligations.StepKeepsHashesMessage : Prop :=
  ∀ s t : State, s.HashesMessage → step s = .next t → t.HashesMessage

/-- It holds right after reset. -/
def Obligations.ResetHashesMessage : Prop := State.reset.HashesMessage

/-- R132: two sessions from contexts that agree on H, BLEN, BUF[0..BLEN) and TLEN, absorbing the same bytes in whatever
chunks and with whatever rejected commands between, end with the same H, BLEN, BUF[0..BLEN) and TLEN, and a following
RESULT writes equal DIGEST. -/
def Obligations.ChunkIndependence : Prop :=
  ∀ (s₁ s₂ t₁ t₂ : State) (k₁ k₂ : Nat) (b : List Byte),
    ContextOpen s₁ → ContextOpen s₂ → SameContext s₁ s₂ →
    sessionRun k₁ s₁ = some (b, t₁) → sessionRun k₂ s₂ = some (b, t₂) →
    SameContext t₁ t₂ ∧
    ∃ u₁ u₂, exec .result t₁ = .next u₁ ∧ exec .result t₂ = .next u₂ ∧ u₁.digest = u₂.digest

/-- R133, R87: from any state, BEGIN; UPDATEB S; RESULT ends with DIGEST = MD5(S), DVALID = 1 and PHASE = FINALIZED. -/
def Obligations.BeginUpdateResultComputesMd5 : Prop :=
  ∀ (s : State) (msg : List Byte), msg.length < 2 ^ 64 →
    ∃ t, runActions ([command .begin] ++ updateB msg ++ [command .result]) s = .next t ∧
      t.digest = md5 msg ∧ t.dvalid = true ∧ t.phase = .finalized ∧ t.last = .ok

/-- R88, R89: DIGEST2 and DIGESTN from any state end FINALIZED with DVALID = 1, and the host reads the MD5 of the
concatenation of the buffers. -/
def Obligations.DigestPseudoCommandsReadMd5 : Prop :=
  (∀ (s : State) (in1 in2 : List Byte),
    ∃ t, runActions (digest2 in1 in2) s = .next t ∧ t.phase = .finalized ∧ t.dvalid = true ∧
      t.digest = md5 (in1 ++ in2) ∧ t.obs.getLast? = some (.digest (md5 (in1 ++ in2)))) ∧
  (∀ (s : State) (ins : List (List Byte)),
    ∃ t, runActions (digestN ins) s = .next t ∧ t.phase = .finalized ∧ t.dvalid = true ∧
      t.digest = md5 ins.flatten ∧ t.obs.getLast? = some (.digest (md5 ins.flatten)))

/-- Two states the host cannot tell apart stay so at every step, and fault alike: the values the spec leaves unspecified
(R23, R40, R101, R125) reach no output, and repeated runs are identical (R134). -/
def Obligations.UnspecifiedValuesReachNoOutput : Prop :=
  ∀ s t : State, SameToHost s t →
    match step s, step t with
    | .next s', .next t' => SameToHost s' t'
    | .fault f, .fault g => f = g
    | _, _ => False

/-- R194: a step of one engine of a platform is that engine's own step and leaves every other engine as it was. -/
def Obligations.EnginesAreIndependent : Prop :=
  ∀ (p q : Platform) (k : Fin p.length), platformStep p k = .next q →
    q.length = p.length ∧ (∀ t, step p[k] = .next t → q[k.val]? = some t) ∧
    ∀ j : Nat, j ≠ k.val → q[j]? = p[j]?

/-! ### What a digest may be trusted for (70_reset_and_hazards.md R206) -/

/-- R206: whatever is rejected inside a session, its RESULT writes a well-formed digest, the MD5 of the bytes absorbed,
which may be fewer than the host asked for. No error between BEGIN and RESULT says that every command of the session was
an UPDATE of at most 64 bytes, and then the digest is of exactly as many bytes as the host asked for. -/
def Obligations.SessionDigestIsOfAbsorbedBytes : Prop :=
  ∀ (k : Nat) (m : List Byte) (s t : State), Session k m s t →
    t.dvalid = true ∧ t.phase = .finalized ∧ t.digest = md5 m ∧ m.length ≤ sessionBytesAsked k s ∧
    (NoErrorBetween s t ↔
      ∀ w, .issue w ∈ s.pending.take k → ∃ n, decode w = .ok (.update n) ∧ n.toNat ≤ 64) ∧
    (NoErrorBetween s t → m.length = sessionBytesAsked k s)

/-- R206: the host may check either way. In a state from which the session's DIGEST is read, STATUS[10:8] = 0 implies that
the session met no error; and a session that met none makes its digest trusted, whatever errors came before or after it,
and the digest is then of all the bytes the host asked for. -/
def Obligations.EitherErrorCheckShowsDigestTrusted : Prop :=
  ∀ (k j : Nat) (m b : List Byte) (s t u : State), Session k m s t → sessionRun j t = some (b, u) →
    u.dvalid = true ∧ u.digest = md5 m ∧
    (ErrorFree u → NoErrorBetween s t) ∧
    (NoErrorBetween s t → DigestTrusted u ∧ m.length = sessionBytesAsked k s)
end

