-- ==== Sys2Proof/Laws/Blocks.lean ====
section
/-! SUPPORT. Blocks of a byte sequence and the chain of `Compress` over them: what the buffer, the padding and the
reference function are all compared with. -/

namespace Sys2Proof.Machine

theorem blockAt_ext {p q : List Byte} {j k : Nat} (h : ∀ i, i < 64 → p[64 * j + i]? = q[64 * k + i]?) :
    blockAt p j = blockAt q k := by
  apply Vector.ext
  intro i hi
  simp [blockAt, List.getD_eq_getElem?_getD, h i hi]

/-- A block inside the first part of an append is that part's block. -/
theorem blockAt_append_left {x y : List Byte} {k : Nat} (h : 64 * (k + 1) ≤ x.length) :
    blockAt (x ++ y) k = blockAt x k :=
  blockAt_ext fun i hi => List.getElem?_append_left (by omega)

/-- A block behind q whole blocks is the second part's block. -/
theorem blockAt_append_right {x y : List Byte} {q k : Nat} (h : x.length = 64 * q) :
    blockAt (x ++ y) (q + k) = blockAt y k :=
  blockAt_ext fun i hi => by
    rw [List.getElem?_append_right (by omega)]
    congr 1
    omega

@[simp] theorem chainBlocks_zero (h : Hash) (p : List Byte) : chainBlocks h p 0 = h := rfl

theorem chainBlocks_one (h : Hash) (p : List Byte) : chainBlocks h p 1 = compress h (blockAt p 0) := rfl

theorem chainBlocks_two (h : Hash) (p : List Byte) :
    chainBlocks h p 2 = compress (compress h (blockAt p 0)) (blockAt p 1) := rfl

theorem chainBlocks_succ (h : Hash) (p : List Byte) (n : Nat) :
    chainBlocks h p (n + 1) = compress (chainBlocks h p n) (blockAt p n) := by
  simp [chainBlocks, List.range_succ]

theorem chainBlocks_congr {p q : List Byte} {n : Nat} (h : Hash) (hb : ∀ k, k < n → blockAt p k = blockAt q k) :
    chainBlocks h p n = chainBlocks h q n := by
  induction n with
  | zero => simp
  | succ n ih => rw [chainBlocks_succ, chainBlocks_succ, ih fun k hk => hb k (by omega), hb n (by omega)]

/-- The chain sees only the blocks it runs over. -/
theorem chainBlocks_append_left {x y : List Byte} {n : Nat} (h : Hash) (hx : 64 * n ≤ x.length) :
    chainBlocks h (x ++ y) n = chainBlocks h x n :=
  chainBlocks_congr h fun k hk => blockAt_append_left (by omega)

/-- A chain over q whole blocks and then n more is a chain from the first one's value. -/
theorem chainBlocks_append {x y : List Byte} {q : Nat} (h : Hash) (n : Nat) (hx : x.length = 64 * q) :
    chainBlocks h (x ++ y) (q + n) = chainBlocks (chainBlocks h x q) y n := by
  induction n with
  | zero => exact chainBlocks_append_left h (by omega)
  | succ n ih => rw [← Nat.add_assoc, chainBlocks_succ, ih, blockAt_append_right hx, chainBlocks_succ]

@[simp] theorem length_le32 (w : Word) : (le32 w).length = 4 := rfl

@[simp] theorem length_le64 (v : DWord) : (le64 v).length = 8 := rfl

@[simp] theorem length_zeros (k : Nat) : (zeros k).length = k := List.length_replicate

end Sys2Proof.Machine
end

