-- ==== Sys2Proof/Laws/Decode.lean ====
section
/-! SUPPORT. The fields of a command word and the words of the commands as numbers, so that facts about encodings are
linear arithmetic; and the decoder's inversion. -/

namespace Sys2Proof

theorem toNat_opcField (w : Word) : (opcField w).toNat = w.toNat % 256 := by
  simp [opcField, BitVec.extractLsb'_toNat]

theorem toNat_lenField (w : Word) : (lenField w).toNat = w.toNat / 256 % 128 := by
  simp [lenField, BitVec.extractLsb'_toNat, Nat.shiftRight_eq_div_pow]

theorem toNat_rsvField (w : Word) : (rsvField w).toNat = w.toNat / 32768 := by
  have := w.isLt
  rw [rsvField, BitVec.extractLsb'_toNat, Nat.shiftRight_eq_div_pow]
  omega

theorem toNat_encode_update (n : BitVec 7) : (encode (.update n)).toNat = 2 + 256 * n.toNat := by
  have h : ∀ n : BitVec 7, (encode (.update n)).toNat = 2 + 256 * n.toNat := by decide +kernel
  exact h n

/-- A field equal to a numeral, as a number. -/
theorem eq_iff_toNat_eq {v : Nat} {x : BitVec v} {k : Nat} (hk : k < 2 ^ v) : x = BitVec.ofNat v k ↔ x.toNat = k := by
  constructor
  · rintro rfl
    simp [Nat.mod_eq_of_lt hk]
  · intro h
    apply BitVec.eq_of_toNat_eq
    rw [h, BitVec.toNat_ofNat, Nat.mod_eq_of_lt hk]

/-- What an accepted word holds, field by field (R75). -/
theorem decode_ok {w : Word} {i : Instr} (h : decode w = .ok i) :
    rsvField w = 0 ∧
    ((opcField w = 0x01 ∧ lenField w = 0 ∧ i = .begin) ∨
     (opcField w = 0x02 ∧ i = .update (lenField w)) ∨
     (opcField w = 0x03 ∧ lenField w = 0 ∧ i = .result)) := by
  unfold decode at h
  split at h
  · cases h
  · next hr =>
    refine ⟨not_not.1 hr, ?_⟩
    split at h
    · next ho =>
      split at h
      · next hl => exact .inl ⟨ho, hl, (Except.ok.inj h).symm⟩
      · cases h
    · split at h
      · next ho => exact .inr (.inl ⟨ho, (Except.ok.inj h).symm⟩)
      · split at h
        · next ho =>
          split at h
          · next hl => exact .inr (.inr ⟨ho, hl, (Except.ok.inj h).symm⟩)
          · cases h
        · cases h

/-- The decoder reads back what the encoder wrote, at every LEN. -/
theorem decode_encode (i : Instr) : decode (encode i) = .ok i := by
  have hu : ∀ n : BitVec 7, decode (encode (.update n)) = .ok (.update n) := by decide +kernel
  cases i with
  | begin => rfl
  | update n => exact hu n
  | result => rfl

end Sys2Proof
end

