-- ==== Sys2Proof/Laws/Memory.lean ====
section
/-! SUPPORT. The laws of DIN: read after write, a write leaves every other byte alone, every operation keeps the
canonical form, and what a sample of DIN holds. -/

namespace Sys2Proof.Machine

@[simp] theorem memRead_nil (a : Nat) : memRead [] a = none := rfl

/-- One law for reading after a write (R29): the written byte at its own address, the old content elsewhere. -/
@[simp] theorem memRead_memWrite (m : Memory) (a : Nat) (b : Byte) (x : Nat) :
    memRead (memWrite m a b) x = if x = a then some b else memRead m x := by
  induction m with
  | nil => simp [memWrite, memRead, eq_comm]
  | cons c rest ih =>
    unfold memWrite
    split
    · simp [memRead, eq_comm]
    · split
      · next h =>
        subst h
        by_cases hx : x = c.1
        · simp [memRead, hx]
        · simp [memRead, hx, Ne.symm hx]
      · next hlt hne =>
        by_cases hx : c.1 = x
        · subst hx; simp [memRead, Ne.symm hne]
        · simp only [memRead, hx, if_false, ih]

theorem mem_memWrite {m : Memory} {a : Nat} {b : Byte} {c : Host.Cell} (h : c ∈ memWrite m a b) :
    c = (a, b) ∨ c ∈ m := by
  induction m with
  | nil => simpa [memWrite] using h
  | cons d rest ih =>
    unfold memWrite at h
    split at h
    · simpa using h
    · split at h
      · rcases List.mem_cons.1 h with h | h
        · exact .inl h
        · exact .inr (List.mem_cons_of_mem _ h)
      · rcases List.mem_cons.1 h with h | h
        · exact .inr (by simp [h])
        · exact (ih h).imp_right (List.mem_cons_of_mem _)

/-- A write to an address of DIN keeps the canonical form. -/
theorem memWrite_wf {m : Memory} {a : Nat} (b : Byte) (hm : m.wf) (ha : a < 64) : (memWrite m a b).wf := by
  refine ⟨?_, fun c hc => (mem_memWrite hc).elim (by rintro rfl; exact ha) (hm.2 c)⟩
  obtain ⟨hp, -⟩ := hm
  induction m with
  | nil => simp [memWrite]
  | cons d rest ih =>
    rw [List.pairwise_cons] at hp
    unfold memWrite
    split
    · next h =>
      refine List.pairwise_cons.2 ⟨fun c hc => ?_, List.pairwise_cons.2 hp⟩
      rcases List.mem_cons.1 hc with rfl | hc
      · exact h
      · exact h.trans (hp.1 c hc)
    · split
      · next h => subst h; exact List.pairwise_cons.2 ⟨hp.1, hp.2⟩
      · next h1 h2 =>
        refine List.pairwise_cons.2 ⟨fun c hc => ?_, ih hp.2⟩
        rcases mem_memWrite hc with rfl | hc
        · exact lt_of_le_of_ne (not_lt.1 h1) (Ne.symm h2)
        · exact hp.1 c hc

/-- The empty DIN of reset is canonical. -/
theorem reset_din_wf : State.reset.din.wf := by simp [State.reset, Memory.wf]

/-- In canonical form an unwritten address lies outside the list, so equal reads mean equal lists below it: a canonical
DIN reads nothing at an address of 64 or more. -/
theorem memRead_none_of_ge {m : Memory} (hm : ∀ c ∈ m, c.1 < 64) {a : Nat} (ha : 64 ≤ a) : memRead m a = none := by
  induction m with
  | nil => rfl
  | cons c rest ih =>
    have := hm c (by simp)
    rw [memRead, if_neg (by omega)]
    exact ih fun d hd => hm d (List.mem_cons_of_mem _ hd)

/-- What a sample of n bytes from address a holds (R51, R52): the bytes in index order. -/
theorem dinFrom_some {m : Memory} {a n : Nat} {d : List Byte} (h : dinFrom m a n = some d) :
    d.length = n ∧ ∀ k, k < n → memRead m (a + k) = d[k]? := by
  induction n generalizing a d with
  | zero => simp only [dinFrom, Option.some.injEq] at h; subst h; simp
  | succ n ih =>
    unfold dinFrom at h
    split at h
    · next b e hb he =>
      obtain rfl := Option.some.inj h
      obtain ⟨hl, hr⟩ := ih he
      refine ⟨by simp [hl], fun k hk => ?_⟩
      cases k with
      | zero => simpa using hb
      | succ k =>
        have := hr k (by omega)
        rw [List.getElem?_cons_succ, ← this]
        congr 1
        omega
    · cases h

/-- A sample exists exactly when every byte of it is written. -/
theorem dinFrom_eq_none {m : Memory} {a n : Nat} : dinFrom m a n = none ↔ ∃ k, k < n ∧ memRead m (a + k) = none := by
  induction n generalizing a with
  | zero => simp [dinFrom]
  | succ n ih =>
    unfold dinFrom
    constructor
    · intro h
      cases hb : memRead m a with
      | none => exact ⟨0, by omega, hb⟩
      | some b =>
        cases he : dinFrom m (a + 1) n with
        | none =>
          obtain ⟨k, hk, hr⟩ := ih.1 he
          exact ⟨k + 1, by omega, by rw [← hr]; congr 1; omega⟩
        | some e => simp [hb, he] at h
    · rintro ⟨k, hk, hr⟩
      cases hb : memRead m a with
      | none => rfl
      | some b =>
        cases k with
        | zero => simp [hb] at hr
        | succ k =>
          have : dinFrom m (a + 1) n = none := ih.2 ⟨k, by omega, by rw [← hr]; congr 1; omega⟩
          simp [this]

theorem dinSample_some {n : Nat} {s : State} {d : List Byte} (h : dinSample n s = some d) :
    d.length = n ∧ ∀ k, k < n → memRead s.din k = d[k]? := by
  simpa using dinFrom_some h

theorem dinSample_eq_none {n : Nat} {s : State} :
    dinSample n s = none ↔ ∃ k, k < n ∧ memRead s.din k = none := by
  simpa [dinSample] using dinFrom_eq_none (m := s.din) (a := 0) (n := n)

/-- With its bytes written (the host's duty, R203) a sample exists. -/
theorem dinSample_of_written {n : Nat} {s : State} (h : DinWritten n s) : ∃ d, dinSample n s = some d := by
  cases hd : dinSample n s with
  | some d => exact ⟨d, rfl⟩
  | none =>
    obtain ⟨k, hk, hr⟩ := dinSample_eq_none.1 hd
    simpa [hr] using h k hk

/-- A sample determines its bytes: two samples of the same length whose reads agree are equal. -/
theorem dinSample_congr {n : Nat} {s t : State} (h : s.din = t.din) : dinSample n s = dinSample n t := by
  simp [dinSample, h]

@[simp] theorem dinSample_zero (s : State) : dinSample 0 s = some [] := rfl

end Sys2Proof.Machine
end

