-- ==== Sys2Proof/Laws/State.lean ====
section
/-! SUPPORT. One small lemma per field per update of the state, so that no later proof unfolds an update. `accept` and
`reject` are read through `respond`. -/

namespace Sys2Proof.Machine

@[simp] theorem accept_eq (s : State) : accept s = respond .ok s := rfl

@[simp] theorem reject_eq (c : Response) (s : State) : reject c s = respond c (setSticky c s) := rfl

/-! ### A DIN write -/

@[simp] theorem writeDinByte_h (k : Fin 64) (b : Byte) (s : State) : (writeDinByte k b s).h = s.h := rfl
@[simp] theorem writeDinByte_buf (k : Fin 64) (b : Byte) (s : State) : (writeDinByte k b s).buf = s.buf := rfl
@[simp] theorem writeDinByte_blen (k : Fin 64) (b : Byte) (s : State) : (writeDinByte k b s).blen = s.blen := rfl
@[simp] theorem writeDinByte_tlen (k : Fin 64) (b : Byte) (s : State) : (writeDinByte k b s).tlen = s.tlen := rfl
@[simp] theorem writeDinByte_phase (k : Fin 64) (b : Byte) (s : State) : (writeDinByte k b s).phase = s.phase := rfl
@[simp] theorem writeDinByte_dvalid (k : Fin 64) (b : Byte) (s : State) : (writeDinByte k b s).dvalid = s.dvalid := rfl
@[simp] theorem writeDinByte_last (k : Fin 64) (b : Byte) (s : State) : (writeDinByte k b s).last = s.last := rfl
@[simp] theorem writeDinByte_errIllegalS (k : Fin 64) (b : Byte) (s : State) : (writeDinByte k b s).errIllegalS = s.errIllegalS := rfl
@[simp] theorem writeDinByte_errMisuseS (k : Fin 64) (b : Byte) (s : State) : (writeDinByte k b s).errMisuseS = s.errMisuseS := rfl
@[simp] theorem writeDinByte_errLengthS (k : Fin 64) (b : Byte) (s : State) : (writeDinByte k b s).errLengthS = s.errLengthS := rfl
@[simp] theorem writeDinByte_digest (k : Fin 64) (b : Byte) (s : State) : (writeDinByte k b s).digest = s.digest := rfl
@[simp] theorem writeDinByte_din (k : Fin 64) (b : Byte) (s : State) : (writeDinByte k b s).din = memWrite s.din k.val b := rfl
@[simp] theorem writeDinByte_pending (k : Fin 64) (b : Byte) (s : State) : (writeDinByte k b s).pending = s.pending := rfl
@[simp] theorem writeDinByte_obs (k : Fin 64) (b : Byte) (s : State) : (writeDinByte k b s).obs = s.obs := rfl
@[simp] theorem writeDinByte_draws (k : Fin 64) (b : Byte) (s : State) : (writeDinByte k b s).draws = s.draws := rfl

/-! ### An observation -/

@[simp] theorem observe_h (o : Observation) (s : State) : (observe o s).h = s.h := rfl
@[simp] theorem observe_buf (o : Observation) (s : State) : (observe o s).buf = s.buf := rfl
@[simp] theorem observe_blen (o : Observation) (s : State) : (observe o s).blen = s.blen := rfl
@[simp] theorem observe_tlen (o : Observation) (s : State) : (observe o s).tlen = s.tlen := rfl
@[simp] theorem observe_phase (o : Observation) (s : State) : (observe o s).phase = s.phase := rfl
@[simp] theorem observe_dvalid (o : Observation) (s : State) : (observe o s).dvalid = s.dvalid := rfl
@[simp] theorem observe_last (o : Observation) (s : State) : (observe o s).last = s.last := rfl
@[simp] theorem observe_errIllegalS (o : Observation) (s : State) : (observe o s).errIllegalS = s.errIllegalS := rfl
@[simp] theorem observe_errMisuseS (o : Observation) (s : State) : (observe o s).errMisuseS = s.errMisuseS := rfl
@[simp] theorem observe_errLengthS (o : Observation) (s : State) : (observe o s).errLengthS = s.errLengthS := rfl
@[simp] theorem observe_digest (o : Observation) (s : State) : (observe o s).digest = s.digest := rfl
@[simp] theorem observe_din (o : Observation) (s : State) : (observe o s).din = s.din := rfl
@[simp] theorem observe_pending (o : Observation) (s : State) : (observe o s).pending = s.pending := rfl
@[simp] theorem observe_obs (o : Observation) (s : State) : (observe o s).obs = s.obs ++ [o] := rfl
@[simp] theorem observe_draws (o : Observation) (s : State) : (observe o s).draws = s.draws := rfl

/-! ### A response -/

@[simp] theorem respond_h (c : Response) (s : State) : (respond c s).h = s.h := rfl
@[simp] theorem respond_buf (c : Response) (s : State) : (respond c s).buf = s.buf := rfl
@[simp] theorem respond_blen (c : Response) (s : State) : (respond c s).blen = s.blen := rfl
@[simp] theorem respond_tlen (c : Response) (s : State) : (respond c s).tlen = s.tlen := rfl
@[simp] theorem respond_phase (c : Response) (s : State) : (respond c s).phase = s.phase := rfl
@[simp] theorem respond_dvalid (c : Response) (s : State) : (respond c s).dvalid = s.dvalid := rfl
@[simp] theorem respond_last (c : Response) (s : State) : (respond c s).last = c := rfl
@[simp] theorem respond_errIllegalS (c : Response) (s : State) : (respond c s).errIllegalS = s.errIllegalS := rfl
@[simp] theorem respond_errMisuseS (c : Response) (s : State) : (respond c s).errMisuseS = s.errMisuseS := rfl
@[simp] theorem respond_errLengthS (c : Response) (s : State) : (respond c s).errLengthS = s.errLengthS := rfl
@[simp] theorem respond_digest (c : Response) (s : State) : (respond c s).digest = s.digest := rfl
@[simp] theorem respond_din (c : Response) (s : State) : (respond c s).din = s.din := rfl
@[simp] theorem respond_pending (c : Response) (s : State) : (respond c s).pending = s.pending := rfl
@[simp] theorem respond_obs (c : Response) (s : State) : (respond c s).obs = s.obs ++ [.response c] := rfl
@[simp] theorem respond_draws (c : Response) (s : State) : (respond c s).draws = s.draws := rfl

/-! ### The sticky bit of a response -/

@[simp] theorem setSticky_h (c : Response) (s : State) : (setSticky c s).h = s.h :=
  by cases c <;> simp [setSticky]
@[simp] theorem setSticky_buf (c : Response) (s : State) : (setSticky c s).buf = s.buf :=
  by cases c <;> simp [setSticky]
@[simp] theorem setSticky_blen (c : Response) (s : State) : (setSticky c s).blen = s.blen :=
  by cases c <;> simp [setSticky]
@[simp] theorem setSticky_tlen (c : Response) (s : State) : (setSticky c s).tlen = s.tlen :=
  by cases c <;> simp [setSticky]
@[simp] theorem setSticky_phase (c : Response) (s : State) : (setSticky c s).phase = s.phase :=
  by cases c <;> simp [setSticky]
@[simp] theorem setSticky_dvalid (c : Response) (s : State) : (setSticky c s).dvalid = s.dvalid :=
  by cases c <;> simp [setSticky]
@[simp] theorem setSticky_last (c : Response) (s : State) : (setSticky c s).last = s.last :=
  by cases c <;> simp [setSticky]
@[simp] theorem setSticky_errIllegalS (c : Response) (s : State) : (setSticky c s).errIllegalS = (s.errIllegalS || c == .errIllegal) :=
  by cases c <;> simp [setSticky]
@[simp] theorem setSticky_errMisuseS (c : Response) (s : State) : (setSticky c s).errMisuseS = (s.errMisuseS || c == .errMisuse) :=
  by cases c <;> simp [setSticky]
@[simp] theorem setSticky_errLengthS (c : Response) (s : State) : (setSticky c s).errLengthS = (s.errLengthS || c == .errLength) :=
  by cases c <;> simp [setSticky]
@[simp] theorem setSticky_digest (c : Response) (s : State) : (setSticky c s).digest = s.digest :=
  by cases c <;> simp [setSticky]
@[simp] theorem setSticky_din (c : Response) (s : State) : (setSticky c s).din = s.din :=
  by cases c <;> simp [setSticky]
@[simp] theorem setSticky_pending (c : Response) (s : State) : (setSticky c s).pending = s.pending :=
  by cases c <;> simp [setSticky]
@[simp] theorem setSticky_obs (c : Response) (s : State) : (setSticky c s).obs = s.obs :=
  by cases c <;> simp [setSticky]
@[simp] theorem setSticky_draws (c : Response) (s : State) : (setSticky c s).draws = s.draws :=
  by cases c <;> simp [setSticky]

/-! ### The writes of BEGIN -/

@[simp] theorem beginContext_h (s : State) : (beginContext s).h = iv := rfl
@[simp] theorem beginContext_buf (s : State) : (beginContext s).buf = Config.freeBlock s.draws := rfl
@[simp] theorem beginContext_blen (s : State) : (beginContext s).blen = 0 := rfl
@[simp] theorem beginContext_tlen (s : State) : (beginContext s).tlen = 0 := rfl
@[simp] theorem beginContext_phase (s : State) : (beginContext s).phase = .fresh := rfl
@[simp] theorem beginContext_dvalid (s : State) : (beginContext s).dvalid = false := rfl
@[simp] theorem beginContext_last (s : State) : (beginContext s).last = s.last := rfl
@[simp] theorem beginContext_errIllegalS (s : State) : (beginContext s).errIllegalS = s.errIllegalS := rfl
@[simp] theorem beginContext_errMisuseS (s : State) : (beginContext s).errMisuseS = s.errMisuseS := rfl
@[simp] theorem beginContext_errLengthS (s : State) : (beginContext s).errLengthS = s.errLengthS := rfl
@[simp] theorem beginContext_digest (s : State) : (beginContext s).digest = s.digest := rfl
@[simp] theorem beginContext_din (s : State) : (beginContext s).din = s.din := rfl
@[simp] theorem beginContext_pending (s : State) : (beginContext s).pending = s.pending := rfl
@[simp] theorem beginContext_obs (s : State) : (beginContext s).obs = s.obs := rfl
@[simp] theorem beginContext_draws (s : State) : (beginContext s).draws = s.draws + 1 := rfl

/-! ### One absorbed byte: what it never touches -/

@[simp] theorem absorbByte_tlen (s : State) (b : Byte) : (absorbByte s b).tlen = s.tlen :=
  by unfold absorbByte; split <;> rfl
@[simp] theorem absorbByte_phase (s : State) (b : Byte) : (absorbByte s b).phase = s.phase :=
  by unfold absorbByte; split <;> rfl
@[simp] theorem absorbByte_dvalid (s : State) (b : Byte) : (absorbByte s b).dvalid = s.dvalid :=
  by unfold absorbByte; split <;> rfl
@[simp] theorem absorbByte_last (s : State) (b : Byte) : (absorbByte s b).last = s.last :=
  by unfold absorbByte; split <;> rfl
@[simp] theorem absorbByte_errIllegalS (s : State) (b : Byte) : (absorbByte s b).errIllegalS = s.errIllegalS :=
  by unfold absorbByte; split <;> rfl
@[simp] theorem absorbByte_errMisuseS (s : State) (b : Byte) : (absorbByte s b).errMisuseS = s.errMisuseS :=
  by unfold absorbByte; split <;> rfl
@[simp] theorem absorbByte_errLengthS (s : State) (b : Byte) : (absorbByte s b).errLengthS = s.errLengthS :=
  by unfold absorbByte; split <;> rfl
@[simp] theorem absorbByte_digest (s : State) (b : Byte) : (absorbByte s b).digest = s.digest :=
  by unfold absorbByte; split <;> rfl
@[simp] theorem absorbByte_din (s : State) (b : Byte) : (absorbByte s b).din = s.din :=
  by unfold absorbByte; split <;> rfl
@[simp] theorem absorbByte_pending (s : State) (b : Byte) : (absorbByte s b).pending = s.pending :=
  by unfold absorbByte; split <;> rfl
@[simp] theorem absorbByte_obs (s : State) (b : Byte) : (absorbByte s b).obs = s.obs :=
  by unfold absorbByte; split <;> rfl
@[simp] theorem absorbByte_draws (s : State) (b : Byte) : (absorbByte s b).draws = s.draws :=
  by unfold absorbByte; split <;> rfl

/-! ### Absorbed bytes: what they never touch -/

@[simp] theorem absorb_tlen (d : List Byte) (s : State) : (absorb d s).tlen = s.tlen := by
  induction d generalizing s with
  | nil => rfl
  | cons b d ih => exact (ih _).trans (absorbByte_tlen s b)
@[simp] theorem absorb_phase (d : List Byte) (s : State) : (absorb d s).phase = s.phase := by
  induction d generalizing s with
  | nil => rfl
  | cons b d ih => exact (ih _).trans (absorbByte_phase s b)
@[simp] theorem absorb_dvalid (d : List Byte) (s : State) : (absorb d s).dvalid = s.dvalid := by
  induction d generalizing s with
  | nil => rfl
  | cons b d ih => exact (ih _).trans (absorbByte_dvalid s b)
@[simp] theorem absorb_last (d : List Byte) (s : State) : (absorb d s).last = s.last := by
  induction d generalizing s with
  | nil => rfl
  | cons b d ih => exact (ih _).trans (absorbByte_last s b)
@[simp] theorem absorb_errIllegalS (d : List Byte) (s : State) : (absorb d s).errIllegalS = s.errIllegalS := by
  induction d generalizing s with
  | nil => rfl
  | cons b d ih => exact (ih _).trans (absorbByte_errIllegalS s b)
@[simp] theorem absorb_errMisuseS (d : List Byte) (s : State) : (absorb d s).errMisuseS = s.errMisuseS := by
  induction d generalizing s with
  | nil => rfl
  | cons b d ih => exact (ih _).trans (absorbByte_errMisuseS s b)
@[simp] theorem absorb_errLengthS (d : List Byte) (s : State) : (absorb d s).errLengthS = s.errLengthS := by
  induction d generalizing s with
  | nil => rfl
  | cons b d ih => exact (ih _).trans (absorbByte_errLengthS s b)
@[simp] theorem absorb_digest (d : List Byte) (s : State) : (absorb d s).digest = s.digest := by
  induction d generalizing s with
  | nil => rfl
  | cons b d ih => exact (ih _).trans (absorbByte_digest s b)
@[simp] theorem absorb_din (d : List Byte) (s : State) : (absorb d s).din = s.din := by
  induction d generalizing s with
  | nil => rfl
  | cons b d ih => exact (ih _).trans (absorbByte_din s b)
@[simp] theorem absorb_pending (d : List Byte) (s : State) : (absorb d s).pending = s.pending := by
  induction d generalizing s with
  | nil => rfl
  | cons b d ih => exact (ih _).trans (absorbByte_pending s b)
@[simp] theorem absorb_obs (d : List Byte) (s : State) : (absorb d s).obs = s.obs := by
  induction d generalizing s with
  | nil => rfl
  | cons b d ih => exact (ih _).trans (absorbByte_obs s b)
@[simp] theorem absorb_draws (d : List Byte) (s : State) : (absorb d s).draws = s.draws := by
  induction d generalizing s with
  | nil => rfl
  | cons b d ih => exact (ih _).trans (absorbByte_draws s b)

/-! ### The bytes beyond BLEN -/

@[simp] theorem freeTail_h (s : State) : (freeTail s).h = s.h := by
  simp only [freeTail]
@[simp] theorem freeTail_blen (s : State) : (freeTail s).blen = s.blen := by
  simp only [freeTail]
@[simp] theorem freeTail_tlen (s : State) : (freeTail s).tlen = s.tlen := by
  simp only [freeTail]
@[simp] theorem freeTail_phase (s : State) : (freeTail s).phase = s.phase := by
  simp only [freeTail]
@[simp] theorem freeTail_dvalid (s : State) : (freeTail s).dvalid = s.dvalid := by
  simp only [freeTail]
@[simp] theorem freeTail_last (s : State) : (freeTail s).last = s.last := by
  simp only [freeTail]
@[simp] theorem freeTail_errIllegalS (s : State) : (freeTail s).errIllegalS = s.errIllegalS := by
  simp only [freeTail]
@[simp] theorem freeTail_errMisuseS (s : State) : (freeTail s).errMisuseS = s.errMisuseS := by
  simp only [freeTail]
@[simp] theorem freeTail_errLengthS (s : State) : (freeTail s).errLengthS = s.errLengthS := by
  simp only [freeTail]
@[simp] theorem freeTail_digest (s : State) : (freeTail s).digest = s.digest := by
  simp only [freeTail]
@[simp] theorem freeTail_din (s : State) : (freeTail s).din = s.din := by
  simp only [freeTail]
@[simp] theorem freeTail_pending (s : State) : (freeTail s).pending = s.pending := by
  simp only [freeTail]
@[simp] theorem freeTail_obs (s : State) : (freeTail s).obs = s.obs := by
  simp only [freeTail]
@[simp] theorem freeTail_draws (s : State) : (freeTail s).draws = s.draws + 1 := by
  simp only [freeTail]

/-! ### The writes of UPDATE outside BUF -/

@[simp] theorem updateContext_h (d : List Byte) (s : State) : (updateContext d s).h = (absorb d s).h :=
  by unfold updateContext; split <;> simp
@[simp] theorem updateContext_blen (d : List Byte) (s : State) : (updateContext d s).blen = (absorb d s).blen :=
  by unfold updateContext; split <;> simp
@[simp] theorem updateContext_tlen (d : List Byte) (s : State) : (updateContext d s).tlen = s.tlen + BitVec.ofNat 64 d.length :=
  by unfold updateContext; split <;> simp
@[simp] theorem updateContext_phase (d : List Byte) (s : State) : (updateContext d s).phase = .absorbing :=
  by unfold updateContext; split <;> simp
@[simp] theorem updateContext_dvalid (d : List Byte) (s : State) : (updateContext d s).dvalid = s.dvalid :=
  by unfold updateContext; split <;> simp
@[simp] theorem updateContext_last (d : List Byte) (s : State) : (updateContext d s).last = s.last :=
  by unfold updateContext; split <;> simp
@[simp] theorem updateContext_errIllegalS (d : List Byte) (s : State) : (updateContext d s).errIllegalS = s.errIllegalS :=
  by unfold updateContext; split <;> simp
@[simp] theorem updateContext_errMisuseS (d : List Byte) (s : State) : (updateContext d s).errMisuseS = s.errMisuseS :=
  by unfold updateContext; split <;> simp
@[simp] theorem updateContext_errLengthS (d : List Byte) (s : State) : (updateContext d s).errLengthS = s.errLengthS :=
  by unfold updateContext; split <;> simp
@[simp] theorem updateContext_digest (d : List Byte) (s : State) : (updateContext d s).digest = s.digest :=
  by unfold updateContext; split <;> simp
@[simp] theorem updateContext_din (d : List Byte) (s : State) : (updateContext d s).din = s.din :=
  by unfold updateContext; split <;> simp
@[simp] theorem updateContext_pending (d : List Byte) (s : State) : (updateContext d s).pending = s.pending :=
  by unfold updateContext; split <;> simp
@[simp] theorem updateContext_obs (d : List Byte) (s : State) : (updateContext d s).obs = s.obs :=
  by unfold updateContext; split <;> simp

/-! ### The writes of RESULT -/

@[simp] theorem finishContext_h (s : State) : (finishContext s).h = finalHash s := rfl
@[simp] theorem finishContext_buf (s : State) : (finishContext s).buf = Config.freeBlock s.draws := rfl
@[simp] theorem finishContext_blen (s : State) : (finishContext s).blen = Config.freeBlen s.draws := rfl
@[simp] theorem finishContext_tlen (s : State) : (finishContext s).tlen = Config.freeTlen s.draws := rfl
@[simp] theorem finishContext_phase (s : State) : (finishContext s).phase = .finalized := rfl
@[simp] theorem finishContext_dvalid (s : State) : (finishContext s).dvalid = true := rfl
@[simp] theorem finishContext_last (s : State) : (finishContext s).last = s.last := rfl
@[simp] theorem finishContext_errIllegalS (s : State) : (finishContext s).errIllegalS = s.errIllegalS := rfl
@[simp] theorem finishContext_errMisuseS (s : State) : (finishContext s).errMisuseS = s.errMisuseS := rfl
@[simp] theorem finishContext_errLengthS (s : State) : (finishContext s).errLengthS = s.errLengthS := rfl
@[simp] theorem finishContext_digest (s : State) : (finishContext s).digest = serialize (finalHash s) := rfl
@[simp] theorem finishContext_din (s : State) : (finishContext s).din = s.din := rfl
@[simp] theorem finishContext_pending (s : State) : (finishContext s).pending = s.pending := rfl
@[simp] theorem finishContext_obs (s : State) : (finishContext s).obs = s.obs := rfl
@[simp] theorem finishContext_draws (s : State) : (finishContext s).draws = s.draws + 1 := rfl

/-! ### A hardware reset -/

@[simp] theorem hardwareReset_h (s : State) : (hardwareReset s).h = Config.freeHash s.draws := rfl
@[simp] theorem hardwareReset_buf (s : State) : (hardwareReset s).buf = Config.freeBlock s.draws := rfl
@[simp] theorem hardwareReset_blen (s : State) : (hardwareReset s).blen = Config.freeBlen s.draws := rfl
@[simp] theorem hardwareReset_tlen (s : State) : (hardwareReset s).tlen = Config.freeTlen s.draws := rfl
@[simp] theorem hardwareReset_phase (s : State) : (hardwareReset s).phase = .idle := rfl
@[simp] theorem hardwareReset_dvalid (s : State) : (hardwareReset s).dvalid = false := rfl
@[simp] theorem hardwareReset_last (s : State) : (hardwareReset s).last = .ok := rfl
@[simp] theorem hardwareReset_errIllegalS (s : State) : (hardwareReset s).errIllegalS = false := rfl
@[simp] theorem hardwareReset_errMisuseS (s : State) : (hardwareReset s).errMisuseS = false := rfl
@[simp] theorem hardwareReset_errLengthS (s : State) : (hardwareReset s).errLengthS = false := rfl
@[simp] theorem hardwareReset_digest (s : State) : (hardwareReset s).digest = Config.freeDigest s.draws := rfl
@[simp] theorem hardwareReset_din (s : State) : (hardwareReset s).din = [] := rfl
@[simp] theorem hardwareReset_pending (s : State) : (hardwareReset s).pending = s.pending := rfl
@[simp] theorem hardwareReset_obs (s : State) : (hardwareReset s).obs = s.obs := rfl
@[simp] theorem hardwareReset_draws (s : State) : (hardwareReset s).draws = s.draws + 1 := rfl

end Sys2Proof.Machine
end

