-- ==== Sys2Proof/Laws/Ops.lean ====
section
/-! SUPPORT. What each shared operation can do, said once: the buffer, the padding, the final hash. -/

namespace Sys2Proof.Machine

@[simp] theorem length_bufValid (s : State) : (bufValid s).length = s.blen.toNat := by
  simp only [bufValid, List.length_take, Vector.length_toList]
  omega

/-- The valid bytes after a command that changes neither BUF nor BLEN. -/
theorem bufValid_congr {s t : State} (hb : s.buf = t.buf) (hl : s.blen = t.blen) : bufValid s = bufValid t := by
  simp [bufValid, hb, hl]

@[simp] theorem bufValid_observe (o : Observation) (s : State) : bufValid (observe o s) = bufValid s := rfl

@[simp] theorem bufValid_respond (c : Response) (s : State) : bufValid (respond c s) = bufValid s := rfl

@[simp] theorem bufValid_setSticky (c : Response) (s : State) : bufValid (setSticky c s) = bufValid s :=
  bufValid_congr (by simp) (by simp)

@[simp] theorem bufValid_beginContext (s : State) : bufValid (beginContext s) = [] := rfl

/-- The unspecified bytes of R23 are beyond the valid ones. -/
@[simp] theorem bufValid_freeTail (s : State) : bufValid (freeTail s) = bufValid s := by
  apply List.ext_getElem?
  intro i
  simp only [bufValid, freeTail_blen, List.getElem?_take]
  split
  · next h =>
    have h64 : i < 64 := by omega
    simp [freeTail, h, h64]
  · rfl

/-- A byte that does not fill the block is appended (R110). -/
theorem absorbByte_of_room {s : State} (b : Byte) (h : s.blen ≠ 63) :
    (absorbByte s b).h = s.h ∧ (absorbByte s b).blen.toNat = s.blen.toNat + 1 ∧
      bufValid (absorbByte s b) = bufValid s ++ [b] := by
  have hlt : s.blen.toNat < 63 := by
    have : s.blen.toNat ≠ 63 := fun e => h (BitVec.eq_of_toNat_eq (by simpa using e))
    omega
  have hadd : (s.blen + 1).toNat = s.blen.toNat + 1 := by
    rw [BitVec.toNat_add, show (1 : BitVec 6).toNat = 1 from rfl]
    omega
  simp only [absorbByte, h, if_false, bufValid, hadd, true_and]
  apply List.ext_getElem?
  intro i
  have hl : (s.buf.toList.take s.blen.toNat).length = s.blen.toNat := length_bufValid s
  rcases lt_trichotomy i s.blen.toNat with hi | hi | hi
  · rw [List.getElem?_append_left (by omega)]
    simp only [Vector.toList_set, List.getElem?_take]
    rw [if_pos (by omega), if_pos hi, List.getElem?_set_ne (by omega)]
  · subst hi
    rw [List.getElem?_append_right (by omega), hl]
    simp
  · rw [List.getElem?_eq_none (by simp; omega), List.getElem?_eq_none (by simp; omega)]

/-- The byte that fills the block runs `Compress` on the 64 bytes and empties the buffer (R110). -/
theorem absorbByte_of_full {s : State} (b : Byte) (h : s.blen = 63) :
    (absorbByte s b).h = compress s.h (blockAt (bufValid s ++ [b]) 0) ∧ (absorbByte s b).blen = 0 ∧
      bufValid (absorbByte s b) = [] := by
  have h63 : s.blen.toNat = 63 := by simp [h]
  simp only [absorbByte, h, if_true, bufValid, true_and]
  refine ⟨?_, by simp⟩
  congr 1
  apply Vector.ext
  intro i hi
  have hl : (s.buf.toList.take 63).length = 63 := by simp
  simp only [blockAt, Vector.getElem_ofFn, List.getD_eq_getElem?_getD, Nat.mul_zero, Nat.zero_add, Vector.getElem_set]
  rcases Nat.lt_or_ge i 63 with h' | h'
  · simp [List.getElem?_append, h', Nat.ne_of_gt h']
  · obtain rfl : i = 63 := by omega
    simp

/-- Everything the loop of R105 does (R110): with `all` the valid bytes and the new ones, `Compress` runs over the whole
blocks of `all` and the rest of `all` stays in the buffer. -/
theorem absorb_spec (d : List Byte) (s : State) :
    (absorb d s).h = chainBlocks s.h (bufValid s ++ d) ((bufValid s ++ d).length / 64) ∧
    (absorb d s).blen.toNat = (bufValid s ++ d).length % 64 ∧
    bufValid (absorb d s) = (bufValid s ++ d).drop (64 * ((bufValid s ++ d).length / 64)) := by
  induction d generalizing s with
  | nil =>
    have hlt : s.blen.toNat < 64 := s.blen.isLt
    have h0 : s.blen.toNat / 64 = 0 := by omega
    simp [absorb, h0]
    omega
  | cons b d ih =>
    have hstep : absorb (b :: d) s = absorb d (absorbByte s b) := rfl
    obtain ⟨ih1, ih2, ih3⟩ := ih (absorbByte s b)
    rw [hstep, ih1, ih2, ih3]
    by_cases hb : s.blen = 63
    · obtain ⟨e1, -, e3⟩ := absorbByte_of_full b hb
      have h63 : s.blen.toNat = 63 := by simp [hb]
      have hx : (bufValid s ++ [b]).length = 64 * 1 := by simp [h63]
      have hall : bufValid s ++ b :: d = (bufValid s ++ [b]) ++ d := by simp
      have hlen : (bufValid s ++ b :: d).length = 64 + d.length := by simp [h63]; omega
      have hq : (64 + d.length) / 64 = 1 + d.length / 64 := by omega
      rw [e1, e3, hlen, hq, List.nil_append]
      refine ⟨?_, by omega, ?_⟩
      · rw [hall, chainBlocks_append _ _ hx, chainBlocks_one]
      · rw [hall, Nat.mul_add, ← List.drop_drop, List.drop_left' (by simpa using hx)]
    · obtain ⟨e1, -, e3⟩ := absorbByte_of_room b hb
      simp [e1, e3]

/-- The loop reads only H, BLEN and the valid bytes (R23: no rule reads the others). -/
theorem absorb_congr {s t : State} (d : List Byte) (hh : s.h = t.h) (hv : bufValid s = bufValid t) :
    (absorb d s).h = (absorb d t).h ∧ (absorb d s).blen = (absorb d t).blen ∧
      bufValid (absorb d s) = bufValid (absorb d t) := by
  obtain ⟨a1, a2, a3⟩ := absorb_spec d s
  obtain ⟨b1, b2, b3⟩ := absorb_spec d t
  exact ⟨by rw [a1, b1, hh, hv], BitVec.eq_of_toNat_eq (by rw [a2, b2, hv]), by rw [a3, b3, hv]⟩

theorem absorb_append (d e : List Byte) (s : State) : absorb (d ++ e) s = absorb e (absorb d s) := List.foldl_append ..

/-- The valid bytes after an UPDATE are those the loop left (R23, R113). -/
@[simp] theorem bufValid_updateContext (d : List Byte) (s : State) :
    bufValid (updateContext d s) = bufValid (absorb d s) := by
  have : bufValid (if d = [] then absorb d s else freeTail (absorb d s)) = bufValid (absorb d s) := by
    split
    · rfl
    · exact bufValid_freeTail _
  exact this

/-- The zero count of R122 in natural numbers. -/
theorem zeroCount_eq (b : BitVec 6) : zeroCount b = (119 - b.toNat) % 64 := by
  have := b.isLt
  rw [zeroCount, BitVec.toNat_sub, show (55 : BitVec 6).toNat = 55 from rfl]
  omega

theorem length_tailBytes (s : State) :
    (tailBytes s).length = if s.blen.toNat ≤ 55 then 64 else 128 := by
  have := s.blen.isLt
  simp only [tailBytes, List.length_append, length_bufValid, length_zeros, length_le64, List.length_cons,
    List.length_nil, zeroCount_eq]
  split <;> omega

/-- The final hash is the chain over the whole tail (R123). -/
theorem finalHash_eq (s : State) : finalHash s = chainBlocks s.h (tailBytes s) ((tailBytes s).length / 64) := by
  simp only [finalHash, length_tailBytes]
  split <;> simp [chainBlocks_one, chainBlocks_two]

/-- The tail reads only BLEN, the valid bytes and TLEN. -/
theorem tailBytes_congr {s t : State} (hl : s.blen = t.blen) (hv : bufValid s = bufValid t) (ht : s.tlen = t.tlen) :
    tailBytes s = tailBytes t := by
  simp [tailBytes, hl, hv, ht]

theorem finalHash_congr {s t : State} (hh : s.h = t.h) (hl : s.blen = t.blen) (hv : bufValid s = bufValid t)
    (ht : s.tlen = t.tlen) : finalHash s = finalHash t := by
  rw [finalHash_eq, finalHash_eq, hh, tailBytes_congr hl hv ht]

end Sys2Proof.Machine
end

