-- ==== Sys2Proof/Laws/Step.lean ====
section
/-! SUPPORT. What each command and each step can do, said once: an equation per case of a meaning, and an inversion for
`exec` and for `step` from which every law of the machine is derived. -/

namespace Sys2Proof.Machine

theorem closed_iff_not_open {s : State} : ContextClosed s ↔ ¬ ContextOpen s := by
  cases h : s.phase <;> simp [ContextClosed, ContextOpen, h]

theorem not_closed_of_open {s : State} (h : ContextOpen s) : ¬ ContextClosed s :=
  fun hc => closed_iff_not_open.1 hc h

/-! ### The meanings, case by case -/

theorem exec_begin (s : State) : exec .begin s = .next (respond .ok (beginContext s)) := rfl

theorem exec_update_of_closed {s : State} (n : BitVec 7) (h : ContextClosed s) :
    exec (.update n) s = .next (respond .errMisuse (setSticky .errMisuse s)) := by
  simp only [exec, execUpdate, if_pos h, reject_eq]

theorem exec_update_of_long {s : State} {n : BitVec 7} (h : ContextOpen s) (hn : 64 < n.toNat) :
    exec (.update n) s = .next (respond .errLength (setSticky .errLength s)) := by
  simp only [exec, execUpdate, if_neg (not_closed_of_open h), updateLength, hn, if_true, reject_eq]

theorem exec_update_of_unwritten {s : State} {n : BitVec 7} (h : ContextOpen s) (hn : n.toNat ≤ 64)
    (hd : dinSample n.toNat s = none) : exec (.update n) s = .fault .dinUnwritten := by
  simp only [exec, execUpdate, if_neg (not_closed_of_open h), updateLength, if_neg (not_lt.2 hn), hd]

theorem exec_update_of_sample {s : State} {n : BitVec 7} {d : List Byte} (h : ContextOpen s) (hn : n.toNat ≤ 64)
    (hd : dinSample n.toNat s = some d) : exec (.update n) s = .next (respond .ok (updateContext d s)) := by
  simp only [exec, execUpdate, if_neg (not_closed_of_open h), updateLength, if_neg (not_lt.2 hn), hd, accept_eq]

theorem exec_result_of_closed {s : State} (h : ContextClosed s) :
    exec .result s = .next (respond .errMisuse (setSticky .errMisuse s)) := by
  simp only [exec, execResult, if_pos h, reject_eq]

theorem exec_result_of_open {s : State} (h : ContextOpen s) :
    exec .result s = .next (respond .ok (finishContext s)) := by
  simp only [exec, execResult, if_neg (not_closed_of_open h), accept_eq]

/-- Everything a command that completes can have done (R130). -/
theorem exec_cases {i : Instr} {s t : State} (h : exec i s = .next t) :
    (i = .begin ∧ t = respond .ok (beginContext s)) ∨
    (i ≠ .begin ∧ ContextClosed s ∧ t = respond .errMisuse (setSticky .errMisuse s)) ∨
    (∃ n, i = .update n ∧ ContextOpen s ∧ 64 < n.toNat ∧ t = respond .errLength (setSticky .errLength s)) ∨
    (∃ n d, i = .update n ∧ ContextOpen s ∧ n.toNat ≤ 64 ∧ dinSample n.toNat s = some d ∧
      t = respond .ok (updateContext d s)) ∨
    (i = .result ∧ ContextOpen s ∧ t = respond .ok (finishContext s)) := by
  cases i with
  | begin => exact .inl ⟨rfl, (Host.Outcome.next.inj (h.symm.trans (exec_begin s)))⟩
  | update n =>
    by_cases ho : ContextOpen s
    · by_cases hn : 64 < n.toNat
      · rw [exec_update_of_long ho hn] at h
        exact .inr (.inr (.inl ⟨n, rfl, ho, hn, (Host.Outcome.next.inj h).symm⟩))
      · cases hd : dinSample n.toNat s with
        | none => rw [exec_update_of_unwritten ho (not_lt.1 hn) hd] at h; cases h
        | some d =>
          rw [exec_update_of_sample ho (not_lt.1 hn) hd] at h
          exact .inr (.inr (.inr (.inl ⟨n, d, rfl, ho, not_lt.1 hn, hd, (Host.Outcome.next.inj h).symm⟩)))
    · have hc := closed_iff_not_open.2 ho
      rw [exec_update_of_closed n hc] at h
      exact .inr (.inl ⟨by simp, hc, (Host.Outcome.next.inj h).symm⟩)
  | result =>
    by_cases ho : ContextOpen s
    · rw [exec_result_of_open ho] at h
      exact .inr (.inr (.inr (.inr ⟨rfl, ho, (Host.Outcome.next.inj h).symm⟩)))
    · have hc := closed_iff_not_open.2 ho
      rw [exec_result_of_closed hc] at h
      exact .inr (.inl ⟨by simp, hc, (Host.Outcome.next.inj h).symm⟩)

/-- A command faults only as an accepted UPDATE over an unwritten DIN byte, and is never refused. -/
theorem exec_not_next {i : Instr} {s : State} :
    (∀ f, exec i s = .fault f → f = .dinUnwritten ∧
      ∃ n, i = .update n ∧ ContextOpen s ∧ n.toNat ≤ 64 ∧ dinSample n.toNat s = none) ∧
    (∀ r, exec i s ≠ .refused r) := by
  cases i with
  | begin => simp [exec_begin]
  | update n =>
    by_cases ho : ContextOpen s
    · by_cases hn : 64 < n.toNat
      · simp [exec_update_of_long ho hn]
      · cases hd : dinSample n.toNat s with
        | none =>
          rw [exec_update_of_unwritten ho (not_lt.1 hn) hd]
          refine ⟨fun f hf => ?_, fun r hr => by cases hr⟩
          cases hf
          exact ⟨rfl, n, rfl, ho, not_lt.1 hn, hd⟩
        | some d => simp [exec_update_of_sample ho (not_lt.1 hn) hd]
    · simp [exec_update_of_closed n (closed_iff_not_open.2 ho)]
  | result =>
    by_cases ho : ContextOpen s
    · simp [exec_result_of_open ho]
    · simp [exec_result_of_closed (closed_iff_not_open.2 ho)]

/-! ### The step -/

theorem step_of_nil {s : State} (h : s.pending = []) : step s = .next s := by
  simp only [step, performNext, h]

theorem step_of_cons {s : State} {a : HostAction} {rest : List HostAction} (h : s.pending = a :: rest) :
    step s = perform a { s with pending := rest } := by
  simp only [step, performNext, h]

theorem perform_issue_ok {w : Word} {i : Instr} (h : decode w = .ok i) (s : State) :
    perform (.issue w) s = exec i s := by
  simp only [perform, issueCommand, h]

theorem perform_issue_error {w : Word} {e : DecodeError} (h : decode w = .error e) (s : State) :
    perform (.issue w) s = .next (respond .errIllegal (setSticky .errIllegal s)) := by
  simp only [perform, issueCommand, h, reject_eq]

/-- Everything a host action that completes can have done. -/
theorem perform_cases {a : HostAction} {s t : State} (h : perform a s = .next t) :
    (∃ w i, a = .issue w ∧ decode w = .ok i ∧ exec i s = .next t) ∨
    (∃ w e, a = .issue w ∧ decode w = .error e ∧ t = respond .errIllegal (setSticky .errIllegal s)) ∨
    (∃ k b, a = .writeDin k b ∧ t = writeDinByte k b s) ∨
    (a = .readStatus ∧ t = observe (.status (statusWord s)) s) ∨
    (a = .readDigest ∧ s.dvalid = true ∧ t = observe (.digest s.digest) s) ∨
    (a = .reset ∧ t = hardwareReset s) := by
  cases a with
  | issue w =>
    cases hd : decode w with
    | ok i => exact .inl ⟨w, i, rfl, hd, (perform_issue_ok hd s).symm.trans h⟩
    | error e =>
      rw [perform_issue_error hd] at h
      exact .inr (.inl ⟨w, e, rfl, hd, (Host.Outcome.next.inj h).symm⟩)
  | writeDin k b => exact .inr (.inr (.inl ⟨k, b, rfl, (Host.Outcome.next.inj h).symm⟩))
  | readStatus => exact .inr (.inr (.inr (.inl ⟨rfl, (Host.Outcome.next.inj h).symm⟩)))
  | readDigest =>
    change (if s.dvalid = true then _ else _) = _ at h
    split at h
    · next hv => exact .inr (.inr (.inr (.inr (.inl ⟨rfl, hv, (Host.Outcome.next.inj h).symm⟩))))
    · cases h
  | reset => exact .inr (.inr (.inr (.inr (.inr ⟨rfl, (Host.Outcome.next.inj h).symm⟩))))

/-- Everything a step can have done: the engine waited, or it took the oldest action. -/
theorem step_cases {s t : State} (h : step s = .next t) :
    (s.pending = [] ∧ t = s) ∨
    (∃ a rest, s.pending = a :: rest ∧ perform a { s with pending := rest } = .next t) := by
  cases hp : s.pending with
  | nil =>
    rw [step_of_nil hp] at h
    exact .inl ⟨rfl, (Host.Outcome.next.inj h).symm⟩
  | cons a rest =>
    rw [step_of_cons hp] at h
    exact .inr ⟨a, rest, rfl, h⟩

/-- No command touches DIN (R29) or the host's plans. -/
theorem exec_din_pending {i : Instr} {s t : State} (h : exec i s = .next t) :
    t.din = s.din ∧ t.pending = s.pending := by
  obtain ⟨-, rfl⟩ | ⟨-, -, rfl⟩ | ⟨n, -, -, -, rfl⟩ | ⟨n, d, -, -, -, -, rfl⟩ | ⟨-, -, rfl⟩ := exec_cases h <;>
    simp

theorem perform_pending_eq {a : HostAction} {s t : State} (h : perform a s = .next t) : t.pending = s.pending := by
  obtain ⟨w, i, -, -, h⟩ | ⟨w, e, -, -, rfl⟩ | ⟨k, b, -, rfl⟩ | ⟨-, rfl⟩ | ⟨-, -, rfl⟩ | ⟨-, rfl⟩ := perform_cases h
  · exact (exec_din_pending h).2
  all_goals simp

/-- Every command appends exactly one response, the content of LAST (R32, R180). -/
theorem exec_obs {i : Instr} {s t : State} (h : exec i s = .next t) : t.obs = s.obs ++ [.response t.last] := by
  obtain ⟨-, rfl⟩ | ⟨-, -, rfl⟩ | ⟨n, -, -, -, rfl⟩ | ⟨n, d, -, -, -, -, rfl⟩ | ⟨-, -, rfl⟩ := exec_cases h <;>
    simp

end Sys2Proof.Machine
end

