-- ==== Sys2Proof/Laws/Message.lean ====
section
/-! SUPPORT. The machine against the reference function of R133: what the tail of RESULT is for a context that has
absorbed a message. -/

namespace Sys2Proof.Machine

/-- The padded message is the whole blocks of the message and then the tail (R120, R133). -/
theorem paddedMessage_eq {m : List Byte} {s : State} (h : Absorbed m s) :
    paddedMessage m = m.take (64 * (m.length / 64)) ++ tailBytes s := by
  have hz : ((55 - (m.length : Int)) % 64).toNat = zeroCount s.blen := by
    rw [zeroCount_eq, h.blen]
    omega
  have hl : BitVec.ofNat 64 (8 * m.length) = bitLength s.tlen := by
    rw [h.tlen, bitLength]
    apply BitVec.eq_of_toNat_eq
    simp [BitVec.toNat_mul]
  have hm : m.take (64 * (m.length / 64)) ++ bufValid s = m := by rw [h.valid, List.take_append_drop]
  simp only [paddedMessage, tailBytes, hz, hl, ← List.append_assoc, hm]

/-- RESULT's chaining value is the reference function's. -/
theorem finalHash_of_absorbed {m : List Byte} {s : State} (h : Absorbed m s) :
    finalHash s = hashBlocks (paddedMessage m) ((paddedMessage m).length / 64) := by
  have hx : (m.take (64 * (m.length / 64))).length = 64 * (m.length / 64) := by
    rw [List.length_take]
    omega
  have hq : (64 * (m.length / 64) + (tailBytes s).length) / 64 = m.length / 64 + (tailBytes s).length / 64 := by omega
  have hm : m.take (64 * (m.length / 64)) ++ m.drop (64 * (m.length / 64)) = m := List.take_append_drop ..
  have hh : chainBlocks iv (m.take (64 * (m.length / 64))) (m.length / 64) = hashBlocks m (m.length / 64) := by
    have := chainBlocks_append_left (x := m.take (64 * (m.length / 64))) (y := m.drop (64 * (m.length / 64)))
      (n := m.length / 64) iv (le_of_eq hx.symm)
    rw [hm] at this
    exact this.symm
  rw [finalHash_eq, h.hash, ← hh, paddedMessage_eq h, List.length_append, hx, hq]
  exact (chainBlocks_append _ _ hx).symm

/-- BEGIN starts the empty message. -/
theorem absorbed_of_begin (s : State) : Absorbed [] (respond .ok (beginContext s)) where
  isOpen := .inl (by simp)
  hash := by simp [hashBlocks]
  blen := by simp
  valid := by simp
  tlen := by simp

/-- The loop of R105 extends the message, whatever the chunk. -/
theorem absorbed_of_update {m d : List Byte} {s : State} (h : Absorbed m s) :
    Absorbed (m ++ d) (respond .ok (updateContext d s)) := by
  obtain ⟨a1, a2, a3⟩ := absorb_spec d s
  have hx : (m.take (64 * (m.length / 64))).length = 64 * (m.length / 64) := by
    rw [List.length_take]
    omega
  have hsplit : m ++ d = m.take (64 * (m.length / 64)) ++ (bufValid s ++ d) := by
    rw [h.valid, ← List.append_assoc, List.take_append_drop]
  have hlen : (m ++ d).length = 64 * (m.length / 64) + (bufValid s ++ d).length := by
    conv_lhs => rw [hsplit]
    rw [List.length_append, hx]
  have hq : (m ++ d).length / 64 = m.length / 64 + (bufValid s ++ d).length / 64 := by omega
  have hh : chainBlocks iv (m.take (64 * (m.length / 64))) (m.length / 64) = s.h := by
    have := chainBlocks_append_left (x := m.take (64 * (m.length / 64))) (y := m.drop (64 * (m.length / 64)))
      (n := m.length / 64) iv (le_of_eq hx.symm)
    rw [List.take_append_drop] at this
    rw [h.hash, hashBlocks, this]
  refine ⟨.inr (by simp), ?_, ?_, ?_, ?_⟩
  · rw [respond_h, updateContext_h, a1, hq, hashBlocks, hsplit, chainBlocks_append _ _ hx, hh]
  · rw [respond_blen, updateContext_blen, a2, hlen]
    omega
  · rw [bufValid_respond, bufValid_updateContext, a3, hq, hsplit, Nat.mul_add, ← List.drop_drop,
      List.drop_left' hx]
  · rw [respond_tlen, updateContext_tlen, h.tlen, List.length_append]
    apply BitVec.eq_of_toNat_eq
    simp

/-- RESULT writes the MD5 of the message. -/
theorem digest_of_result {m : List Byte} {s : State} (h : Absorbed m s) :
    (respond .ok (finishContext s)).digest = md5 m := by
  simp [md5, finalHash_of_absorbed h]

/-- A command or action that leaves the context alone leaves the message. -/
theorem Absorbed.congr {m : List Byte} {s t : State} (h : Absorbed m s) (hp : t.phase = s.phase) (hh : t.h = s.h)
    (hl : t.blen = s.blen) (hv : bufValid t = bufValid s) (ht : t.tlen = s.tlen) : Absorbed m t where
  isOpen := by rcases h.isOpen with h | h <;> simp [ContextOpen, hp, h]
  hash := by rw [hh, h.hash]
  blen := by rw [hl, h.blen]
  valid := by rw [hv, h.valid]
  tlen := by rw [ht, h.tlen]

end Sys2Proof.Machine
end

