-- ==== Sys2Proof/Laws/PerInstr.lean ====
section
/-! SUPPORT. A law per command, as syntax: its word matches a row of the opcode table and its reserved bits are zero
(30_encoding.md R74, R76). -/

namespace Sys2Proof.Laws.Encoding

/-- The word of `i` is well-formed: some row of the table matches it and RSV is zero. -/
def Statement (i : Instr) : Prop := wellFormedWord (encode i) = true ∧ rsvField (encode i) = 0

theorem begin : Statement .begin := by constructor <;> decide

theorem update (n : BitVec 7) : Statement (.update n) := by
  have h : ∀ n : BitVec 7, wellFormedWord (encode (.update n)) = true ∧ rsvField (encode (.update n)) = 0 := by
    decide +kernel
  exact h n

theorem result : Statement .result := by constructor <;> decide

end Sys2Proof.Laws.Encoding
end

