-- ==== Sys2Proof/Laws/Run.lean ====
section
/-! SUPPORT. Runs of host actions (R208) as a fold of `perform`, so that a run of an append is a run after a run, and what
the expansion of UPDATEB does (R87). -/

namespace Sys2Proof.Machine

/-- The host's plans replaced. -/
def withPending (p : List HostAction) (s : State) : State := { s with pending := p }

@[simp] theorem withPending_pending (p : List HostAction) (s : State) : (withPending p s).pending = p := rfl

@[simp] theorem withPending_idem (p q : List HostAction) (s : State) : withPending p (withPending q s) = withPending p s := rfl

theorem withPending_self (s : State) : withPending s.pending s = s := rfl

/-- The actions in order, with no plans held in the state. -/
def performAll (acts : List HostAction) (s : State) : Host.Outcome State Fault Refusal :=
  match acts with
  | [] => .next s
  | a :: rest =>
    match perform a s with
    | .next t => performAll rest t
    | .fault f => .fault f
    | .refused r => .refused r

theorem performAll_cons_of_next {a : HostAction} {acts : List HostAction} {s t : State} (h : perform a s = .next t) :
    performAll (a :: acts) s = performAll acts t := by
  simp only [performAll, h]

theorem performAll_append_of_next {xs ys : List HostAction} {s t : State} (h : performAll xs s = .next t) :
    performAll (xs ++ ys) s = performAll ys t := by
  induction xs generalizing s with
  | nil =>
    obtain rfl := Host.Outcome.next.inj h
    rfl
  | cons a xs ih =>
    simp only [performAll, List.cons_append] at h ⊢
    cases ha : perform a s with
    | next u => simp only [ha] at h ⊢; exact ih h
    | fault f => simp [ha] at h
    | refused r => simp [ha] at h

theorem bufValid_withPending (p : List HostAction) (s : State) : bufValid (withPending p s) = bufValid s := rfl

theorem absorb_withPending (p : List HostAction) (d : List Byte) (s : State) :
    absorb d (withPending p s) = withPending p (absorb d s) := by
  induction d generalizing s with
  | nil => rfl
  | cons b d ih =>
    have : absorbByte (withPending p s) b = withPending p (absorbByte s b) := by
      unfold absorbByte withPending
      split <;> rfl
    change absorb d (absorbByte (withPending p s) b) = withPending p (absorb d (absorbByte s b))
    rw [this, ih]

theorem updateContext_withPending (p : List HostAction) (d : List Byte) (s : State) :
    updateContext d (withPending p s) = withPending p (updateContext d s) := by
  unfold updateContext
  rw [absorb_withPending]
  split <;> simp [withPending, freeTail]

/-- A change of the next state, where there is one. -/
def mapNext (f : State → State) (o : Host.Outcome State Fault Refusal) : Host.Outcome State Fault Refusal :=
  match o with
  | .next t => .next (f t)
  | .fault r => .fault r
  | .refused r => .refused r

/-- No command looks at the plans behind it. -/
theorem exec_withPending (p : List HostAction) (i : Instr) (s : State) :
    exec i (withPending p s) =
      mapNext (withPending p) (exec i s) := by
  have hc : ContextOpen (withPending p s) ↔ ContextOpen s := Iff.rfl
  cases i with
  | begin => rfl
  | update n =>
    by_cases ho : ContextOpen s
    · by_cases hn : 64 < n.toNat
      · rw [exec_update_of_long ho hn, exec_update_of_long (hc.2 ho) hn]; rfl
      · cases hd : dinSample n.toNat s with
        | none => rw [exec_update_of_unwritten ho (not_lt.1 hn) hd, exec_update_of_unwritten (hc.2 ho) (not_lt.1 hn) hd]; rfl
        | some d =>
          rw [exec_update_of_sample ho (not_lt.1 hn) hd, exec_update_of_sample (hc.2 ho) (not_lt.1 hn) hd,
            updateContext_withPending]
          rfl
    · rw [exec_update_of_closed n (closed_iff_not_open.2 ho), exec_update_of_closed n (closed_iff_not_open.2 (mt hc.1 ho))]
      rfl
  | result =>
    by_cases ho : ContextOpen s
    · rw [exec_result_of_open ho, exec_result_of_open (hc.2 ho)]; rfl
    · rw [exec_result_of_closed (closed_iff_not_open.2 ho), exec_result_of_closed (closed_iff_not_open.2 (mt hc.1 ho))]
      rfl

/-- No action looks at the plans behind it. -/
theorem perform_withPending (p : List HostAction) (a : HostAction) (s : State) :
    perform a (withPending p s) =
      mapNext (withPending p) (perform a s) := by
  cases a with
  | issue w =>
    cases hd : decode w with
    | ok i => rw [perform_issue_ok hd, perform_issue_ok hd, exec_withPending]
    | error e => rw [perform_issue_error hd, perform_issue_error hd]; rfl
  | writeDin k b => rfl
  | readStatus => rfl
  | readDigest =>
    have h : ∀ u : State, perform .readDigest u =
        if u.dvalid = true then .next (observe (.digest u.digest) u) else .fault .digestNotValid := fun u => rfl
    rw [h, h]
    change (if s.dvalid = true then _ else _) = _
    split <;> rfl
  | reset => rfl

/-- A run of k more steps from an outcome. -/
def runFrom (k : Nat) (o : Host.Outcome State Fault Refusal) : Host.Outcome State Fault Refusal :=
  match o with
  | .next t => Host.Core.run core k t
  | .fault r => .fault r
  | .refused r => .refused r

theorem run_succ_of_next (M : Host.Core) {k : Nat} {s t : M.State} (h : M.step s = .next t) :
    M.run (k + 1) s = M.run k t := by simp only [Host.Core.run, h]

theorem run_succ_of_fault (M : Host.Core) {k : Nat} {s : M.State} {r : M.Fault} (h : M.step s = .fault r) :
    M.run (k + 1) s = .fault r := by simp only [Host.Core.run, h]

theorem run_succ_of_refused (M : Host.Core) {k : Nat} {s : M.State} {r : M.Refusal} (h : M.step s = .refused r) :
    M.run (k + 1) s = .refused r := by simp only [Host.Core.run, h]

/-- One step of a run. -/
theorem core_run_succ (k : Nat) (s : State) :
    Host.Core.run core (k + 1) s = runFrom k (step s) := by
  cases h : step s with
  | next t => exact run_succ_of_next core h
  | fault r => exact run_succ_of_fault core h
  | refused r => exact run_succ_of_refused core h

/-- A run of pending actions is the fold of `perform` (R208). -/
theorem run_eq_performAll (acts p : List HostAction) (s : State) (h : s.pending = acts ++ p) :
    Host.Core.run core acts.length s = performAll acts (withPending p s) := by
  induction acts generalizing s with
  | nil =>
    have : withPending p s = s := by rw [← show s.pending = p from h]; exact withPending_self s
    rw [this]
    rfl
  | cons a acts ih =>
    have hs : step s = perform a (withPending (acts ++ p) s) := step_of_cons h
    have h1 := perform_withPending (acts ++ p) a (withPending p s)
    rw [withPending_idem] at h1
    rw [List.length_cons, core_run_succ, hs, h1]
    cases hp : perform a (withPending p s) with
    | next t =>
      have ht : t.pending = p := perform_pending_eq hp
      simp only [performAll, hp, mapNext, runFrom]
      rw [ih (withPending (acts ++ p) t) rfl, withPending_idem]
      congr 1
      rw [← ht]
      exact withPending_self t
    | fault f => simp only [performAll, hp, mapNext, runFrom]; rfl
    | refused r => simp only [performAll, hp, mapNext, runFrom]; rfl

theorem runActions_eq (acts : List HostAction) (s : State) :
    runActions acts s = performAll acts (withPending [] s) := by
  have := run_eq_performAll acts [] (withPending acts s) (by simp)
  exact this

/-- `din` writes its bytes and nothing else (R86). -/
theorem performAll_din (d : List Byte) (k : Nat) (s : State) (h : k + d.length ≤ 64) :
    ∃ m, performAll (dinActions k d) s = .next { s with din := m } ∧
      ∀ a, memRead m a = if k ≤ a ∧ a < k + d.length then d[a - k]? else memRead s.din a := by
  induction d generalizing k s with
  | nil =>
    refine ⟨s.din, rfl, fun a => ?_⟩
    rw [if_neg (by simp)]
  | cons b d ih =>
    have hk : k < 64 := by simp at h; omega
    obtain ⟨m, hm, hr⟩ := ih (k + 1) (writeDinByte ⟨k, hk⟩ b s) (by simp at h; omega)
    refine ⟨m, ?_, fun a => ?_⟩
    · rw [dinActions, dif_pos hk, performAll_cons_of_next (t := writeDinByte ⟨k, hk⟩ b s) rfl, hm]
      rfl
    · rw [hr]
      simp only [writeDinByte_din, memRead_memWrite, List.length_cons]
      by_cases ha : a = k
      · subst ha
        simp
      · by_cases hk' : k + 1 ≤ a ∧ a < k + 1 + d.length
        · rw [if_pos hk', if_pos (by omega), show a - k = (a - (k + 1)) + 1 by omega, List.getElem?_cons_succ]
        · rw [if_neg hk', if_neg ha, if_neg (by omega)]

/-- One pair `din …; UPDATE m` of R87 absorbs its chunk. -/
theorem performAll_updateChunk {m c : List Byte} {s : State} (h : Absorbed m s) (hc : c.length ≤ 64) :
    ∃ t, performAll (updateChunk c) s = .next t ∧ Absorbed (m ++ c) t := by
  obtain ⟨mem, hm, hr⟩ := performAll_din c 0 s (by omega)
  have hu : Absorbed m { s with din := mem } := h.congr rfl rfl rfl rfl rfl
  have hn : (BitVec.ofNat 7 c.length).toNat = c.length := by rw [BitVec.toNat_ofNat]; omega
  have hw : DinWritten c.length { s with din := mem } := fun k hk => by
    simp only [hr]
    simp [hk]
  obtain ⟨d, hd⟩ := dinSample_of_written hw
  have hdc : d = c := by
    obtain ⟨hl, hg⟩ := dinSample_some hd
    apply List.ext_getElem?
    intro k
    by_cases hk : k < c.length
    · rw [← hg k hk]
      simp only [hr]
      simp [hk]
    · rw [List.getElem?_eq_none (by omega), List.getElem?_eq_none (by omega)]
  subst hdc
  refine ⟨respond .ok (updateContext d { s with din := mem }), ?_, absorbed_of_update hu⟩
  rw [updateChunk, performAll_append_of_next hm]
  have : perform (command (.update (BitVec.ofNat 7 d.length))) { s with din := mem } =
      .next (respond .ok (updateContext d { s with din := mem })) := by
    rw [command, perform_issue_ok (decode_encode _)]
    exact exec_update_of_sample hu.isOpen (by omega) (by rw [hn]; exact hd)
  rw [performAll_cons_of_next this]
  rfl

/-- UPDATEB absorbs a byte sequence of any length (R87). -/
theorem performAll_updateB {m : List Byte} (d : List Byte) {s : State} (h : Absorbed m s) :
    ∃ t, performAll (updateB d) s = .next t ∧ Absorbed (m ++ d) t := by
  unfold updateB
  split
  · next hd =>
    subst hd
    refine ⟨respond .ok (updateContext [] s), ?_, absorbed_of_update h⟩
    have : perform (command (.update 0)) s = .next (respond .ok (updateContext [] s)) := by
      rw [command, perform_issue_ok (decode_encode _)]
      exact exec_update_of_sample h.isOpen (by simp) (by simp)
    rw [performAll_cons_of_next this]
    rfl
  · have key : ∀ q, ∃ t, performAll ((List.range q).flatMap fun k => updateChunk (chunkAt d k)) s = .next t ∧
        Absorbed (m ++ d.take (64 * q)) t := by
      intro q
      induction q with
      | zero => exact ⟨s, rfl, by simpa using h⟩
      | succ q ih =>
        obtain ⟨t, ht, ha⟩ := ih
        obtain ⟨u, hu, hb⟩ := performAll_updateChunk (c := chunkAt d q) ha (by simp [chunkAt])
        refine ⟨u, ?_, ?_⟩
        · rw [List.range_succ, List.flatMap_append, performAll_append_of_next ht]
          simpa using hu
        · rw [Nat.mul_succ, List.take_add, ← List.append_assoc]
          exact hb
    obtain ⟨t, ht, ha⟩ := key ((d.length + 63) / 64)
    rw [List.take_of_length_le (by omega)] at ha
    exact ⟨t, ht, ha⟩

end Sys2Proof.Machine
end

