-- ==== Sys2Proof/Laws/Same.lean ====
section
/-! SUPPORT. States that agree on H, BLEN, the valid bytes and TLEN: what UPDATE and RESULT make of them is the same, and
an UPDATE of two pieces is two UPDATEs (40_context_ops.md R132). -/

namespace Sys2Proof.Machine

theorem SameContext.refl (s : State) : SameContext s s := ⟨rfl, rfl, rfl, rfl⟩

theorem SameContext.symm {s t : State} (h : SameContext s t) : SameContext t s :=
  ⟨h.hash.symm, h.blen.symm, h.valid.symm, h.tlen.symm⟩

theorem SameContext.trans {s t u : State} (h : SameContext s t) (g : SameContext t u) : SameContext s u :=
  ⟨h.hash.trans g.hash, h.blen.trans g.blen, h.valid.trans g.valid, h.tlen.trans g.tlen⟩

theorem SameContext.finalHash {s t : State} (h : SameContext s t) :
    Sys2Proof.Machine.finalHash s = Sys2Proof.Machine.finalHash t :=
  finalHash_congr h.hash h.blen h.valid h.tlen

theorem SameContext.update {s t : State} (h : SameContext s t) (d : List Byte) :
    SameContext (updateContext d s) (updateContext d t) := by
  obtain ⟨h1, h2, h3⟩ := absorb_congr d h.hash h.valid
  exact ⟨by simpa using h1, by simpa using h2, by simpa using h3, by simp [h.tlen]⟩

/-- An answer of a response is no part of the context. -/
theorem SameContext.respond (c : Response) (s : State) : SameContext (Sys2Proof.Machine.respond c s) s :=
  ⟨by simp, by simp, by simp, by simp⟩

/-- A rejected command leaves the context (R185). -/
theorem SameContext.reject (c : Response) (s : State) :
    SameContext (Sys2Proof.Machine.respond c (setSticky c s)) s :=
  ⟨by simp, by simp, by simp, by simp⟩

theorem updateContext_nil (s : State) : SameContext (updateContext [] s) s :=
  ⟨by simp [absorb], by simp [absorb], by simp [absorb], by simp⟩

theorem updateContext_append (s : State) (d e : List Byte) :
    SameContext (updateContext (d ++ e) s) (updateContext e (updateContext d s)) := by
  obtain ⟨h1, h2, h3⟩ := absorb_congr (s := updateContext d s) (t := absorb d s) e (by simp) (by simp)
  refine ⟨?_, ?_, ?_, ?_⟩
  · rw [updateContext_h, updateContext_h, h1, absorb_append]
  · rw [updateContext_blen, updateContext_blen, h2, absorb_append]
  · rw [bufValid_updateContext, bufValid_updateContext, h3, absorb_append]
  · simp only [updateContext_tlen, List.length_append]
    apply BitVec.eq_of_toNat_eq
    simp only [BitVec.toNat_add, BitVec.toNat_ofNat]
    omega

end Sys2Proof.Machine
end

