-- ==== Sys2Proof/Laws/Session.lean ====
section
/-! SUPPORT. Sessions step by step (40_context_ops.md R132, 70_reset_and_hazards.md R206): one inversion of `sessionRun`, and
that the host's observation only grows, so that the responses of two stretches are those of the first and then those of the
second. -/

namespace Sys2Proof.Machine

theorem sessionRun_zero (s : State) : sessionRun 0 s = some ([], s) := rfl

/-- Everything a session of one step or more can have done first. -/
theorem sessionRun_succ_iff {k : Nat} {s t : State} {b : List Byte} :
    sessionRun (k + 1) s = some (b, t) ↔
      endsContext s = false ∧ ∃ u c, step s = .next u ∧ sessionRun k u = some (c, t) ∧ b = absorbedNext s ++ c := by
  rw [sessionRun]
  cases he : endsContext s with
  | true => simp
  | false =>
    cases hs : step s with
    | next u =>
      simp only [Bool.false_eq_true, if_false, Option.map_eq_some_iff, Prod.exists, Prod.mk.injEq, true_and]
      constructor
      · rintro ⟨c, v, hk, rfl, rfl⟩
        exact ⟨u, c, rfl, hk, rfl⟩
      · rintro ⟨v, c, hv, hk, rfl⟩
        cases hv
        exact ⟨c, t, hk, rfl, rfl⟩
    | fault f => simp
    | refused r => simp

/-- A host action that completes adds to the observation and takes nothing from it. -/
theorem perform_obs {a : HostAction} {s t : State} (h : perform a s = .next t) : ∃ o, t.obs = s.obs ++ o := by
  obtain ⟨w, i, -, -, h⟩ | ⟨w, e, -, -, rfl⟩ | ⟨k, b, -, rfl⟩ | ⟨-, rfl⟩ | ⟨-, -, rfl⟩ | ⟨-, rfl⟩ := perform_cases h
  · exact ⟨_, exec_obs h⟩
  · exact ⟨[.response .errIllegal], by simp⟩
  · exact ⟨[], by simp⟩
  · exact ⟨_, rfl⟩
  · exact ⟨_, rfl⟩
  · exact ⟨[], by simp⟩

theorem step_obs {s t : State} (h : step s = .next t) : ∃ o, t.obs = s.obs ++ o := by
  obtain ⟨-, rfl⟩ | ⟨a, rest, -, h⟩ := step_cases h
  · exact ⟨[], by simp⟩
  · exact perform_obs (s := { s with pending := rest }) h

theorem sessionRun_obs {k : Nat} {s t : State} {b : List Byte} (h : sessionRun k s = some (b, t)) :
    ∃ o, t.obs = s.obs ++ o := by
  induction k generalizing s b with
  | zero =>
    simp only [sessionRun_zero, Option.some.injEq, Prod.mk.injEq] at h
    exact ⟨[], by simp [h.2]⟩
  | succ k ih =>
    obtain ⟨-, u, c, hu, hk, -⟩ := sessionRun_succ_iff.1 h
    obtain ⟨o, ho⟩ := step_obs hu
    obtain ⟨p, hp⟩ := ih hk
    exact ⟨o ++ p, by rw [hp, ho, List.append_assoc]⟩

theorem responsesSince_self (s : State) : responsesSince s s = [] := by simp [responsesSince]

/-- The responses of two stretches, one after the other. -/
theorem responsesSince_append {s t u : State} (h : ∃ o, t.obs = s.obs ++ o) (g : ∃ o, u.obs = t.obs ++ o) :
    responsesSince s u = responsesSince s t ++ responsesSince t u := by
  obtain ⟨o, ho⟩ := h
  obtain ⟨p, hp⟩ := g
  simp only [responsesSince, hp, List.drop_left]
  simp [ho, List.append_assoc]

theorem noErrorBetween_append {s t u : State} (h : ∃ o, t.obs = s.obs ++ o) (g : ∃ o, u.obs = t.obs ++ o) :
    NoErrorBetween s u ↔ NoErrorBetween s t ∧ NoErrorBetween t u := by
  simp only [NoErrorBetween, responsesSince_append h g, List.mem_append, or_imp, forall_and]

/-- What the host has got by one command is its response. -/
theorem responsesSince_of_response {s t : State} {r : Response} (h : t.obs = s.obs ++ [.response r]) :
    responsesSince s t = [r] := by simp [responsesSince, h]

end Sys2Proof.Machine
end

