-- ==== Sys2Proof/Tests/Slice0.lean ====
section
/-! SUPPORT. Small tests and witnesses. Expected values come from 95_test_vectors.md and from the examples inside the
rules; each test names its source. The witnesses show, for every statement with hypotheses, states and operands that meet
them, at the boundaries of their ranges. -/

namespace Sys2Proof.Tests

open Sys2Proof Sys2Proof.Machine

/-! ### Encoding: words of 95_test_vectors.md section 2 -/

theorem test_decode_begin : decode 0b00000000000000000_0000000_00000001#32 = .ok .begin := by decide

theorem test_decode_update_3 : decode 0b00000000000000000_0000011_00000010#32 = .ok (.update 3) := by decide

theorem test_decode_update_127 : decode 0b00000000000000000_1111111_00000010#32 = .ok (.update 127) := by decide

theorem test_decode_result : decode 0b00000000000000000_0000000_00000011#32 = .ok .result := by decide

theorem test_decode_rejects :
    decode 0x00000101 = .error .lengthField ∧ decode 0x00004103 = .error .lengthField ∧
    decode 0x00008302 = .error .reservedBits ∧ decode 0xFFFFFFFF = .error .reservedBits ∧
    decode 0x00000000 = .error .unassignedOpcode ∧ decode 0x000000FF = .error .unassignedOpcode ∧
    decode 0x00000012 = .error .unassignedOpcode := by decide

/-- R85: the words the assembler's mnemonics stand for. -/
theorem test_encode :
    encode .begin = 0x00000001 ∧ encode (.update 61) = 0x00003D02 ∧ encode (.update 56) = 0x00003802 ∧
    encode .result = 0x00000003 := by decide

theorem test_decodeTableWord :
    decodeTableWord 32 1 = some .begin ∧ decodeTableWord 32 0x302 = some (.update 3) ∧
    decodeTableWord 32 3 = some .result ∧ decodeTableWord 32 0x103 = none ∧ decodeTableWord 40 1 = none := by decide

/-! ### WellFormed: one ill-formed word for each row's check -/

theorem test_wf_begin : beginRow.matches 0x00000001 = true ∧ beginRow.matches 0x00000101 = false := by decide

theorem test_wf_update : updateRow.matches 0x00007F02 = true ∧ updateRow.matches 0x00008002 = false := by decide

theorem test_wf_result : resultRow.matches 0x00000003 = true ∧ resultRow.matches 0x00000103 = false := by decide

theorem test_wf_word : wellFormedWord 0x00004102 = true ∧ wellFormedWord 0x00000000 = false := by decide

/-! ### Compression: 95_test_vectors.md section 4 -/

theorem test_round_functions :
    f0 0x12345678 0x9abcdef0 0x0fedcba9 = 0x1ffddff1 ∧ f1 0x12345678 0x9abcdef0 0x0fedcba9 = 0x92345678 ∧
    f2 0x12345678 0x9abcdef0 0x0fedcba9 = 0x87654321 ∧ f3 0x12345678 0x9abcdef0 0x0fedcba9 = 0x688aa88e := by decide

theorem test_rotl32 :
    rotl32 0x80000001 7 = 0x000000c0 ∧ rotl32 0xdeadbeef 21 = 0xddfbd5b7 ∧ rotl32 0x12345678 23 = 0x3c091a2b := by decide

/-- Section 4.5: the IV and the bytes 00 01 .. 3f. -/
theorem test_compress_counting_block :
    compress iv (Vector.ofFn fun i => BitVec.ofNat 8 i.val) = ⟨0x9144d9ca, 0xd901e4c9, 0x72fc5b38, 0x625ff51e⟩ := by
  decide +kernel

/-- Section 4.5: all ones. -/
theorem test_compress_ones :
    compress ⟨0xffffffff, 0xffffffff, 0xffffffff, 0xffffffff⟩ (Vector.replicate 64 0xff) =
      ⟨0x6cba9129, 0x29ffd12a, 0x8b9bb7d3, 0xa9a0a3c1⟩ := by decide +kernel

/-- Section 4.4: the trace of the "abc" block after each round. -/
theorem test_trace_of_abc :
    let blk := blockAt ([0x61, 0x62, 0x63, 0x80] ++ zeros 52 ++ le64 24) 0
    (schedule.take 16).foldl (md5Step blk) iv = ⟨0xdda9b9a6, 0x72aff2e0, 0xe396856b, 0xa1051895⟩ ∧
    (schedule.take 32).foldl (md5Step blk) iv = ⟨0x790a77fb, 0x726342d3, 0xa62884aa, 0x9f47e4f8⟩ ∧
    (schedule.take 48).foldl (md5Step blk) iv = ⟨0x7f2e507b, 0x7beb9700, 0x8fae6399, 0x99d9679d⟩ := by decide +kernel

/-! ### The commands, one step each -/

/-- The buffer holding some bytes, zeros after them. -/
def bufOf (d : List Byte) : Block := blockAt d 0

/-- A context in ABSORBING that has absorbed these (fewer than 64) bytes. -/
def absorbing (d : List Byte) : State :=
  { State.reset with
    phase := .absorbing, h := iv, buf := bufOf d, blen := BitVec.ofNat 6 d.length, tlen := BitVec.ofNat 64 d.length }

/-- The same state with DIN[0..) written with these bytes. -/
def withDin (d : List Byte) (s : State) : State := { s with din := d.zipIdx.map fun c => (c.2, c.1) }

/-- The next state of a command that completes. -/
def after (i : Instr) (s : State) : Option State := nextState? (exec i s)

/-- P1 step 1: BEGIN after reset gives STATUS 1 and the IV. -/
theorem test_begin : (after .begin State.reset).map (fun t => (statusWord t, t.h, t.blen, t.tlen)) =
    some (0x00000001, ⟨0x67452301, 0xefcdab89, 0x98badcfe, 0x10325476⟩, 0, 0) := by decide

/-- P1 step 3: UPDATE 3 of "abc" on a fresh context. -/
theorem test_update_abc :
    (after (.update 3) { withDin [0x61, 0x62, 0x63] (absorbing []) with phase := .fresh }).map
      (fun t => (statusWord t, t.h, t.blen, t.tlen, bufValid t)) =
    some (0x00000002, iv, 3, 3, [0x61, 0x62, 0x63]) := by decide +kernel

/-- P2 step 5: UPDATE 61 completes the block of 00 01 02 and 40 .. 7c. -/
theorem test_update_completes_block :
    (after (.update 61) (withDin ((List.range 61).map fun i => BitVec.ofNat 8 (0x40 + i)) (absorbing [0, 1, 2]))).map
      (fun t => (statusWord t, t.h, t.blen, t.tlen)) =
    some (0x00000002, ⟨0x85fd72e3, 0x1e146772, 0xeb995346, 0xe193b6bb⟩, 0, 64) := by decide +kernel

/-- P1 step 4 (V2): RESULT after "abc". -/
theorem test_result_abc :
    (after .result (absorbing [0x61, 0x62, 0x63])).map (fun t => (statusWord t, t.digest.toList)) =
    some (0x00000007, [0x90, 0x01, 0x50, 0x98, 0x3c, 0xd2, 0x4f, 0xb0, 0xd6, 0x96, 0x3f, 0x7d, 0x28, 0xe1, 0x7f, 0x72]) := by
  decide +kernel

/-- P6 step 5: 56 bytes need two final blocks. -/
theorem test_result_two_blocks :
    (after .result (absorbing (List.replicate 56 0x61))).map (fun t => (t.h, t.digest.toList.take 4)) =
    some (⟨0xc78a0c3b, 0xb028f803, 0x70196c4c, 0x1872d106⟩, [0x3b, 0x0c, 0x8a, 0xc7]) := by decide +kernel

/-- P3 step 5: a second RESULT is misuse and leaves DIGEST valid (STATUS 0x227 with the misuse bit set before). -/
theorem test_second_result :
    (after .result { State.reset with phase := .finalized, dvalid := true, errMisuseS := true }).map statusWord =
      some 0x00000227 := by decide

/-- P3 step 9: UPDATE 65 in FRESH with the misuse bit set before. -/
theorem test_update_65 :
    (after (.update 65) { State.reset with phase := .fresh, errMisuseS := true }).map statusWord = some 0x00000631 := by
  decide

/-- P3 step 11: an illegal word in ABSORBING. -/
theorem test_illegal_word :
    (nextState? (step (({ absorbing [0x61, 0x62, 0x63] with errMisuseS := true, errLengthS := true } :
      State).withFetchWord 32 4))).map statusWord = some 0x00000712 := by decide

/-- V1: the reference function on the empty message; section 6: on "a" x 64 (padding only in the last block). -/
theorem test_md5_reference :
    (md5 []).toList = [0xd4, 0x1d, 0x8c, 0xd9, 0x8f, 0x00, 0xb2, 0x04, 0xe9, 0x80, 0x09, 0x98, 0xec, 0xf8, 0x42, 0x7e] ∧
    (md5 (List.replicate 64 0x61)).toList =
      [0x01, 0x48, 0x42, 0xd4, 0x80, 0xb5, 0x71, 0x49, 0x5a, 0x4a, 0x03, 0x63, 0x79, 0x3f, 0x73, 0x67] := by
  decide +kernel

/-- Section 5: z and the length field at TLEN 55, 56 and 2^61 + 1. -/
theorem test_padding :
    zeroCount 55 = 0 ∧ zeroCount 56 = 63 ∧ zeroCount 63 = 56 ∧ zeroCount 0 = 55 ∧
    le64 (bitLength 56) = [0xc0, 0x01, 0, 0, 0, 0, 0, 0] ∧
    le64 (bitLength 2305843009213693953) = [0x08, 0, 0, 0, 0, 0, 0, 0] := by decide

/-! ### The host's side -/

/-- R86: `din @62` of two bytes reaches DIN[63]. -/
theorem test_din_actions : dinActions 62 [1, 2] = [.writeDin 62 1, .writeDin 63 2] := by decide

/-- R87: 65 bytes are two pairs, UPDATE 64 and UPDATE 1; no bytes are UPDATE 0. -/
theorem test_updateB :
    updateB (List.replicate 65 7) =
      dinActions 0 (List.replicate 64 7) ++ [.issue 0x00004002, .writeDin 0 7, .issue 0x00000102] ∧
    updateB [] = [.issue 0x00000002] := by decide +kernel

/-- R87: the first response that is not OK, else OK. -/
theorem test_expansionResponse :
    expansionResponse [.ok, .errLength, .errMisuse] = .errLength ∧ expansionResponse [.ok, .ok] = .ok := by decide

/-- R85, R86: the assembler on lines of 95_test_vectors.md and of the rules. -/
theorem test_assemble :
    assembleLine "BEGIN" = some [.issue 0x00000001] ∧
    assembleLine "update 3 ; three bytes" = some [.issue 0x00000302] ∧
    assembleLine ".word 0x00008302" = some [.issue 0x00008302] ∧
    assembleLine "din \"ab\"" = some [.writeDin 0 0x61, .writeDin 1 0x62] ∧
    assembleLine "din @32 0x0102" = some [.writeDin 32 0x01, .writeDin 33 0x02] ∧
    assembleLine "read STATUS" = some [.readStatus] := by decide +kernel

/-- R88, R89: the pseudo-commands. -/
theorem test_assemble_pseudo :
    assembleLine "DIGEST2 \"a\", 0x62" = some [.issue 1, .writeDin 0 0x61, .issue 0x102, .writeDin 0 0x62, .issue 0x102, .issue 3, .readDigest] ∧
    assembleLine "DIGESTN" = some [.issue 1, .issue 3, .readDigest] ∧
    assembleLine "UPDATEB 0x" = some [.issue 2] := by decide +kernel

theorem test_assemble_rejects :
    assembleLine "UPDATE 128" = none ∧ assembleLine "din @63 0x0102" = none ∧ assembleLine "NOP" = none := by
  decide +kernel

/-! ### Every command runs as the first after reset -/

theorem test_first_commands :
    (nextState? (step (State.reset.withFetchWord 32 1))).map statusWord = some 0x00000001 ∧
    (nextState? (step (State.reset.withFetchWord 32 0x302))).map statusWord = some 0x00000220 ∧
    (nextState? (step (State.reset.withFetchWord 32 3))).map statusWord = some 0x00000220 := by decide

/-! ### Witnesses: the hypotheses of the statements are met -/

/-- ReservedBitMakesWordIllegal, at both ends of RSV. -/
theorem test_wit_reservedBit : (0x00008002 : Word).getLsbD 15 = true ∧ (0x80000002 : Word).getLsbD 31 = true := by decide

/-- IdleEngineHoldsItsState. -/
theorem test_wit_idle : State.reset.pending = [] := rfl

/-- StepRunsDecodedCommand. -/
theorem test_wit_stepRuns :
    (State.reset.withFetchWord 32 0x302).pending = [.issue 0x00000302] ∧ decode 0x00000302 = .ok (.update 3) := by decide

/-- IllegalWordChangesLastAndStickyOnly: one word for each of its three groups, and one of them issued after reset. -/
theorem test_wit_illegal :
    (State.reset.withFetchWord 32 4).pending = [.issue 4] ∧ (∀ i, decode 4 ≠ .ok i) ∧
    ((4 : Word).extractLsb' 0 8 ≠ 0x01#8 ∧ (4 : Word).extractLsb' 0 8 ≠ 0x02#8 ∧ (4 : Word).extractLsb' 0 8 ≠ 0x03#8) ∧
    (0x00008302 : Word).extractLsb' 15 17 ≠ 0#17 ∧
    ((0x00000101 : Word).extractLsb' 0 8 = 0x01#8 ∧ (0x00000101 : Word).extractLsb' 8 7 ≠ 0#7) ∧
    ((0x00004103 : Word).extractLsb' 0 8 = 0x03#8 ∧ (0x00004103 : Word).extractLsb' 8 7 ≠ 0#7) :=
  ⟨by decide, fun i h => (by rw [show decode 4 = .error .unassignedOpcode by decide] at h; cases h), by decide⟩

/-- ResponseCodesExactly, ErrorResponseChangesNothingElse, LastHoldsTheLatestResponse, StickyBitsClearedOnlyByReset: each
of the four responses is given by a step. -/
theorem test_wit_responses :
    (nextState? (step (State.reset.withFetchWord 32 1))).map (·.last) = some .ok ∧
    (nextState? (step (State.reset.withFetchWord 32 0))).map (·.last) = some .errIllegal ∧
    (nextState? (step (State.reset.withFetchWord 32 3))).map (·.last) = some .errMisuse ∧
    (nextState? (step ((absorbing []).withFetchWord 32 0x4102))).map (·.last) = some .errLength := by decide

/-- FirstErrorWins: a word for each clause, with more than one error where the order decides (R186's examples). -/
theorem test_wit_firstError :
    decode 0x00008302 = .error .reservedBits ∧
    (decode 0x00006402 = .ok (.update 100) ∧
      ContextClosed { State.reset with phase := .finalized }) ∧
    (decode 0x00004102 = .ok (.update 65) ∧ ¬ ContextClosed (absorbing []) ∧ 64 < (65#7).toNat) := by decide

/-- FirstErrorWins (last clause) and UpdateFaultsOnlyOnUnwrittenDin: an accepted UPDATE over an unwritten byte, the last
of its range. -/
theorem test_wit_fault :
    exec (.update 3) (withDin [1, 2] (absorbing [])) = .fault .dinUnwritten ∧ ContextOpen (absorbing []) ∧
    (3#7).toNat ≤ 64 ∧ memRead (withDin [1, 2] (absorbing [])).din 2 = none :=
  ⟨rfl, by decide, by decide, by decide⟩

/-- The steps of host actions that the statements about them speak of complete: a read of STATUS, of a valid DIGEST, a DIN
write at each end of DIN, a reset. -/
theorem test_wit_hostActions :
    (∃ t, step { State.reset with pending := [.readStatus] } = .next t) ∧
    (∃ t, step { State.reset with phase := .finalized, dvalid := true, pending := [.readDigest] } = .next t) ∧
    (∃ t, step { State.reset with pending := [.writeDin 0 5] } = .next t) ∧
    (∃ t, step { State.reset with pending := [.writeDin 63 5] } = .next t) ∧
    (∃ t, step { absorbing [1] with errLengthS := true, pending := [.reset] } = .next t) :=
  ⟨⟨_, rfl⟩, ⟨_, rfl⟩, ⟨_, rfl⟩, ⟨_, rfl⟩, ⟨_, rfl⟩⟩

/-- DigestReadNeedsDvalid, its other clause: a read while DVALID = 0 faults. -/
theorem test_wit_digestFault : step { State.reset with pending := [.readDigest] } = .fault .digestNotValid := rfl

/-- ErrorFreeStatusMeansEveryCommandAccepted: a step after which STATUS[10:8] is still 0. -/
theorem test_wit_errorFree : ∃ t, step (State.reset.withFetchWord 32 1) = .next t ∧ ErrorFree t :=
  ⟨_, rfl, by decide⟩

/-- UpdateWithoutContextIsMisuse, ResultWithoutContextIsMisuse: both closed phases. -/
theorem test_wit_closed :
    ContextClosed State.reset ∧ ContextClosed { State.reset with phase := .finalized } := by decide

/-- UpdateTooLongIsLengthError: the least and the greatest length, in both open phases. -/
theorem test_wit_tooLong :
    ContextOpen { State.reset with phase := .fresh } ∧ ContextOpen (absorbing []) ∧ 64 < (65#7).toNat ∧
    64 < (127#7).toNat := by decide

/-- UpdateAbsorbsDinBytes, UpdateExtendsTheMessage: BLEN + n = 63 (no block), 64 (one block, nothing left) and 127 (one
block, 63 bytes left), with the DIN bytes written. -/
theorem test_wit_update :
    (ContextOpen (withDin (List.replicate 61 7) (absorbing [1, 2])) ∧
      DinWritten 61 (withDin (List.replicate 61 7) (absorbing [1, 2])) ∧
      (absorbing [1, 2]).blen.toNat + (61#7).toNat = 63) ∧
    (DinWritten 61 (withDin (List.replicate 61 7) (absorbing [1, 2, 3])) ∧
      (absorbing [1, 2, 3]).blen.toNat + (61#7).toNat = 64) ∧
    (DinWritten 64 (withDin (List.replicate 64 7) (absorbing (List.replicate 63 1))) ∧
      (absorbing (List.replicate 63 1)).blen.toNat + (64#7).toNat = 127) := by decide +kernel

/-- TlenCountsAbsorbedBytes: an accepted and a rejected UPDATE complete. -/
theorem test_wit_tlen :
    (after (.update 3) (withDin [1, 2, 3] (absorbing []))).map (·.last) = some .ok ∧
    (after (.update 65) (absorbing [])).map (·.last) = some .errLength := by decide +kernel

/-- UpdateZeroChangesPhaseAndLastOnly: both open phases. -/
theorem test_wit_updateZero :
    ContextOpen { State.reset with phase := .fresh } ∧ ContextOpen { State.reset with phase := .absorbing } := by decide

/-- ResultWritesDigest and FinalBlocksAreOneOrTwo: BLEN at 0, 55, 56, 63, and BLEN = TLEN mod 64 at the named lengths. -/
theorem test_wit_result :
    ContextOpen (absorbing []) ∧ (absorbing []).blen.toNat = 0 ∧
    (absorbing (List.replicate 55 1)).blen.toNat = 55 ∧ (absorbing (List.replicate 56 1)).blen.toNat = 56 ∧
    (absorbing (List.replicate 63 1)).blen.toNat = 63 ∧
    (absorbing (List.replicate 55 1)).blen.toNat = (absorbing (List.replicate 55 1)).tlen.toNat % 64 ∧
    (({ absorbing [] with tlen := 64 } : State).blen.toNat = 64 % 64) ∧
    (({ absorbing [1] with tlen := 65 } : State).blen.toNat = 65 % 64) := by decide +kernel

/-- LengthFieldIsLittleEndianBitCount: two TLENs that differ in bits 63:61 only, and RESULT completing on both. -/
theorem test_wit_lengthField :
    (0xE000000000000003 : DWord).extractLsb' 0 61 = (absorbing [1, 2, 3]).tlen.extractLsb' 0 61 ∧
    (∃ t, exec .result (absorbing [1, 2, 3]) = .next t) ∧
    (∃ u, exec .result { absorbing [1, 2, 3] with tlen := 0xE000000000000003 } = .next u) :=
  ⟨by decide +kernel, ⟨_, rfl⟩, ⟨_, rfl⟩⟩

/-- PhaseTransitionTable: DIN written in a closed and in an open phase, and an illegal word. -/
theorem test_wit_phase :
    DinWritten 3 (withDin [1, 2, 3] State.reset) ∧ DinWritten 0 State.reset ∧
    DinWritten 64 (withDin (List.replicate 64 1) (absorbing [])) ∧
    decode 0x00000004 = .error .unassignedOpcode := by decide +kernel

/-- DvalidWrittenByBeginResultReset, DigestWrittenOnlyByResult: a RESULT that is answered OK, a BEGIN, another command. -/
theorem test_wit_dvalid :
    (nextState? (step ((absorbing [1]).withFetchWord 32 3))).map (fun t => (t.last, t.dvalid)) = some (.ok, true) ∧
    (nextState? (step (({ State.reset with phase := .finalized, dvalid := true } : State).withFetchWord 32 1))).map
      (·.dvalid) = some false ∧
    (nextState? (step (({ State.reset with phase := .finalized, dvalid := true } : State).withFetchWord 32 2))).map
      (·.dvalid) = some true := by decide

/-- StatusLayout, its last clause: a DIN write is neither a command nor a reset. -/
theorem test_wit_status : (∀ w, HostAction.writeDin 0 5 ≠ .issue w) ∧ HostAction.writeDin 0 5 ≠ .reset := by simp

/-- RotlMovesEveryBit, RoundFunctionsBitwise: the ends of the ranges. -/
theorem test_wit_rotl : (1 ≤ 1 ∧ 1 ≤ 31 ∧ 0 < 32) ∧ (1 ≤ 31 ∧ 31 ≤ 31 ∧ 31 < 32) := by decide

/-- StepKeepsInvariant: a state other than reset's that meets it, with a step. -/
theorem test_wit_invariant :
    State.Inv (withDin [1, 2, 3] (absorbing [1])) ∧
    ∃ t, step ((withDin [1, 2, 3] (absorbing [1])).withFetchWord 32 0x302) = .next t :=
  ⟨⟨by decide, fun _ => by decide, by decide, by decide, by decide⟩, ⟨_, rfl⟩⟩

/-- UpdateExtendsTheMessage, ResultWritesMd5OfTheMessage: a context that has absorbed "abc". -/
theorem test_wit_absorbed : Absorbed [0x61, 0x62, 0x63] (absorbing [0x61, 0x62, 0x63]) :=
  ⟨by decide, by decide +kernel, by decide, by decide +kernel, by decide⟩

/-- StepKeepsHashesMessage: that context, with a step. -/
theorem test_wit_hashesMessage :
    State.HashesMessage (absorbing [0x61, 0x62, 0x63]) ∧
    ∃ t, step ((absorbing [0x61, 0x62, 0x63]).withFetchWord 32 3) = .next t :=
  ⟨⟨fun _ => ⟨_, test_wit_absorbed⟩, by simp [absorbing, State.reset]⟩, ⟨_, rfl⟩⟩

/-- A session that absorbs 61 62 63 in chunks of 2 and 1, with a rejected command between. -/
def chunked : State :=
  { withDin [0x61, 0x62] (absorbing []) with
    pending := [.issue 0x00000202, .issue 0x00004102, .writeDin 0 0x63, .issue 0x00000102] }

/-- A session that absorbs the same bytes at once. -/
def unchunked : State := { withDin [0x61, 0x62, 0x63] (absorbing []) with pending := [.issue 0x00000302] }

/-- ChunkIndependence: two sessions of different chunking that absorb the same bytes. -/
theorem test_wit_chunks :
    (sessionRun 4 chunked).map (fun r => (r.1, r.2.tlen)) = some ([0x61, 0x62, 0x63], 3) ∧
    (sessionRun 1 unchunked).map (fun r => (r.1, r.2.tlen)) = some ([0x61, 0x62, 0x63], 3) ∧
    ContextOpen chunked ∧ ContextOpen unchunked ∧ SameContext chunked unchunked :=
  ⟨by decide +kernel, by decide +kernel, by decide, by decide, ⟨rfl, rfl, rfl, rfl⟩⟩

/-- BeginUpdateResultComputesMd5. -/
theorem test_wit_message : ([0x61, 0x62, 0x63] : List Byte).length < 2 ^ 64 := by decide

/-- An error before the session: BEGIN, "a" absorbed, RESULT, and a second RESULT (ERR_MISUSE) before the read. -/
def cleanSession : State :=
  { State.reset with
    errMisuseS := true
    pending := [.issue 1, .writeDin 0 0x61, .issue 0x102, .issue 3, .issue 3, .readDigest] }

/-- A session in which an UPDATE of 65 bytes is rejected and the host goes on. -/
def dirtySession : State :=
  { State.reset with pending := [.issue 1, .issue 0x4102, .issue 3] }

/-- SessionDigestIsOfAbsorbedBytes: a session without and one with an error between its BEGIN and its RESULT. -/
theorem test_wit_session :
    (∃ s t, Session 2 [0x61] s t ∧ NoErrorBetween s t ∧ sessionBytesAsked 2 s = 1) ∧
    (∃ s t, Session 1 [] s t ∧ ¬ NoErrorBetween s t ∧ sessionBytesAsked 1 s = 65) := by
  refine ⟨⟨_, _, ⟨⟨cleanSession, _, rfl, rfl⟩, _, _, rfl, rfl, rfl⟩, ?_, ?_⟩,
    ⟨_, _, ⟨⟨dirtySession, _, rfl, rfl⟩, _, _, rfl, rfl, rfl⟩, ?_, ?_⟩⟩ <;> decide

/-- EitherErrorCheckShowsDigestTrusted, R206: the digest of a session without an error is trusted although errors came
before and after it; and the other check, STATUS[10:8] = 0, holds of a run with no error at all. -/
theorem test_wit_trusted :
    (∃ u, DigestTrusted u ∧ ¬ ErrorFree u) ∧
    (∃ s t u, Session 2 [0x61] s t ∧ sessionRun 0 t = some ([], u) ∧ ErrorFree u) := by
  refine ⟨⟨_, ⟨?_, .inr ⟨2, [0x61], _, _, ⟨⟨cleanSession, _, rfl, rfl⟩, _, _, rfl, rfl, rfl⟩, ?_, 2, [], rfl⟩⟩, ?_⟩,
    ⟨_, _, _, ⟨⟨{ cleanSession with errMisuseS := false }, _, rfl, rfl⟩, _, _, rfl, rfl, rfl⟩, rfl, ?_⟩⟩ <;> decide

/-- UnspecifiedValuesReachNoOutput: two IDLE states that differ in H and TLEN. -/
theorem test_wit_sameToHost :
    SameToHost State.reset { State.reset with h := iv, tlen := 5, draws := 9 } ∧
    State.reset ≠ { State.reset with h := iv, tlen := 5, draws := 9 } :=
  ⟨⟨rfl, rfl, rfl, rfl, rfl, rfl, rfl, rfl, rfl, by simp [State.reset], by simp [State.reset]⟩, by decide⟩

/-- EnginesAreIndependent: a platform of two engines steps its second. -/
theorem test_wit_platform :
    ∃ q, platformStep [State.reset, State.reset.withFetchWord 32 1] ⟨1, by decide⟩ = .next q := ⟨_, rfl⟩

end Sys2Proof.Tests
end

section
namespace Sys2Proof.Machine

/-! Proofs about `rotl32` (R10). -/

/-- For an amount below the word width, the engine's shift-and-or is the library's rotation. -/
theorem rotl32_eq_rotateLeft (x : Word) {s : Nat} (hs : s < 32) : rotl32 x s = x.rotateLeft s := by
  rw [BitVec.rotateLeft_def, Nat.mod_eq_of_lt hs, rotl32]

/-- Settles O32: a bit below `s` wraps around from the top end of the word, any other bit moves up by `s`. -/
theorem rotlMovesEveryBit : Obligations.RotlMovesEveryBit := by
  intro x s k _ hs hk
  have hlt : s < 32 := by omega
  rw [rotl32_eq_rotateLeft x hlt, BitVec.getLsbD_rotateLeft_of_le hlt]
  by_cases hwrap : k < s
  · have hsource : (k + 32 - s) % 32 = 32 - s + k := by omega
    simp [hwrap, hsource]
  · have hsource : (k + 32 - s) % 32 = k - s := by omega
    simp [hwrap, hsource, hk]

end Sys2Proof.Machine
end

section
/-! Proofs about the state and what every step keeps (10_state.md): the inversions they share. -/

namespace Sys2Proof

/-- A command word as a number is made of its three fields (R71). -/
theorem toNat_eq_fields (w : Word) :
    w.toNat = (opcField w).toNat + 256 * (lenField w).toNat + 32768 * (rsvField w).toNat := by
  rw [toNat_opcField, toNat_lenField, toNat_rsvField]
  omega

/-- The decoder accepts a word as `i` only if it is the word of `i` (R75, R76). -/
theorem decode_eq_ok_iff {w : Word} {i : Instr} : decode w = .ok i ↔ w = encode i := by
  constructor
  · intro h
    obtain ⟨hr, hc⟩ := decode_ok h
    apply BitVec.eq_of_toNat_eq
    rw [toNat_eq_fields, hr]
    obtain ⟨ho, hl, rfl⟩ | ⟨ho, rfl⟩ | ⟨ho, hl, rfl⟩ := hc
    · rw [ho, hl]; rfl
    · rw [ho, toNat_encode_update]; rfl
    · rw [ho, hl]; rfl
  · rintro rfl
    exact decode_encode i

end Sys2Proof

namespace Sys2Proof.Machine

/-! ### The inversions of a step -/

theorem perform_of_step {s t : State} {a : HostAction} {rest : List HostAction} (hp : s.pending = a :: rest)
    (h : step s = .next t) : perform a (withPending rest s) = .next t :=
  (step_of_cons hp).symm.trans h

/-- Everything a command word that completes can have done: BEGIN, a rejection, an accepted UPDATE, an accepted
RESULT. -/
theorem perform_issue_cases {w : Word} {s t : State} (h : perform (.issue w) s = .next t) :
    (decode w = .ok .begin ∧ t = respond .ok (beginContext s)) ∨
    (∃ c, c ≠ .ok ∧ decode w ≠ .ok .begin ∧ t = respond c (setSticky c s)) ∨
    (∃ n d, decode w = .ok (.update n) ∧ ContextOpen s ∧ t = respond .ok (updateContext d s)) ∨
    (decode w = .ok .result ∧ ContextOpen s ∧ t = respond .ok (finishContext s)) := by
  cases hd : decode w with
  | error e =>
    rw [perform_issue_error hd] at h
    exact .inr (.inl ⟨_, by simp, by simp, (Host.Outcome.next.inj h).symm⟩)
  | ok i =>
    rw [perform_issue_ok hd] at h
    obtain ⟨rfl, ht⟩ | ⟨hi, -, ht⟩ | ⟨n, rfl, -, -, ht⟩ | ⟨n, d, rfl, ho, -, -, ht⟩ | ⟨rfl, ho, ht⟩ := exec_cases h
    · exact .inl ⟨rfl, ht⟩
    · exact .inr (.inl ⟨_, by simp, by simpa using hi, ht⟩)
    · exact .inr (.inl ⟨_, by simp, by simp, ht⟩)
    · exact .inr (.inr (.inl ⟨n, d, rfl, ho, ht⟩))
    · exact .inr (.inr (.inr ⟨rfl, ho, ht⟩))

/-- Everything a host action that is no command and completes can have done: a DIN write, a port read, or a reset. -/
theorem perform_port_cases {a : HostAction} {s t : State} (ha : ∀ w, a ≠ .issue w) (h : perform a s = .next t) :
    (∃ k b, a = .writeDin k b ∧ t = writeDinByte k b s) ∨
    (a ≠ .reset ∧ ∃ o, t = observe o s) ∨
    (a = .reset ∧ t = hardwareReset s) := by
  obtain ⟨w, i, rfl, -⟩ | ⟨w, e, rfl, -⟩ | ⟨k, b, rfl, ht⟩ | ⟨rfl, ht⟩ | ⟨rfl, -, ht⟩ | ⟨rfl, ht⟩ := perform_cases h
  · exact absurd rfl (ha w)
  · exact absurd rfl (ha w)
  · exact .inl ⟨k, b, rfl, ht⟩
  · exact .inr (.inl ⟨by simp, _, ht⟩)
  · exact .inr (.inl ⟨by simp, _, ht⟩)
  · exact .inr (.inr ⟨rfl, ht⟩)

/-- A predicate that does not depend on the host's plans and that every action keeps is kept by every step. -/
theorem step_keeps {P : State → Prop} (hplan : ∀ s p, P s → P (withPending p s))
    (hact : ∀ a s t, P s → perform a s = .next t → P t) {s t : State} (hs : P s) (h : step s = .next t) : P t := by
  obtain ⟨-, rfl⟩ | ⟨a, rest, -, h⟩ := step_cases h
  · exact hs
  · exact hact a _ t (hplan s rest hs) h

/-! ### The invariant of the engine -/

/-- An action that leaves the context, DVALID and DIGEST alone keeps the invariant if it keeps DIN canonical and the
sticky bit of LAST set. -/
theorem State.Inv.congr {s t : State} (hs : s.Inv) (hdin : t.din.wf) (hlast : stickyOf t.last t = true)
    (hphase : t.phase = s.phase) (hdvalid : t.dvalid = s.dvalid) (hdigest : t.digest = s.digest)
    (hctx : SameContext t s) : t.Inv where
  dinWf := hdin
  blenTlen := by rw [ContextOpen, hphase, hctx.blen, hctx.tlen]; exact hs.blenTlen
  dvalidPhase := by rw [hdvalid, hphase]; exact hs.dvalidPhase
  digestHash := by rw [hdvalid, hdigest, hctx.hash]; exact hs.digestHash
  lastSticky := hlast

/-- R33: a rejected command sets the sticky bit of the code it leaves in LAST. -/
theorem stickyOf_last_reject (c : Response) (s : State) :
    stickyOf (respond c (setSticky c s)).last (respond c (setSticky c s)) = true := by
  cases c <;> rfl

/-- In an open context DVALID is 0. -/
theorem State.Inv.dvalid_of_open {s : State} (hs : s.Inv) (ho : ContextOpen s) : s.dvalid = false := by
  rw [← Bool.not_eq_true, hs.dvalidPhase]
  exact fun hf => not_closed_of_open ho (.inr hf)

theorem inv_of_begin {s : State} (hs : s.Inv) : (respond .ok (beginContext s)).Inv where
  dinWf := hs.dinWf
  blenTlen := by simp
  dvalidPhase := by simp
  digestHash := by simp
  lastSticky := rfl

theorem inv_of_reject {s : State} (c : Response) (hs : s.Inv) : (respond c (setSticky c s)).Inv :=
  hs.congr (by simpa using hs.dinWf) (stickyOf_last_reject c s) (by simp) (by simp) (by simp) (.reject c s)

/-- R26: BLEN and TLEN both grow by the bytes absorbed, and 64 divides 2^64. -/
theorem inv_of_update {s : State} (d : List Byte) (hs : s.Inv) (ho : ContextOpen s) :
    (respond .ok (updateContext d s)).Inv where
  dinWf := by simpa using hs.dinWf
  blenTlen := fun _ => by
    obtain ⟨-, hblen, -⟩ := absorb_spec d s
    have hold := hs.blenTlen ho
    simp only [respond_blen, updateContext_blen, respond_tlen, updateContext_tlen, hblen, List.length_append,
      length_bufValid, BitVec.toNat_add, BitVec.toNat_ofNat]
    omega
  dvalidPhase := by simp [hs.dvalid_of_open ho]
  digestHash := by simp [hs.dvalid_of_open ho]
  lastSticky := rfl

theorem inv_of_result {s : State} (hs : s.Inv) : (respond .ok (finishContext s)).Inv where
  dinWf := hs.dinWf
  blenTlen := by simp
  dvalidPhase := by simp
  digestHash := by simp
  lastSticky := rfl

theorem inv_of_writeDin {s : State} (k : Fin 64) (b : Byte) (hs : s.Inv) : (writeDinByte k b s).Inv :=
  hs.congr (memWrite_wf b hs.dinWf k.isLt) hs.lastSticky rfl rfl rfl ⟨rfl, rfl, rfl, rfl⟩

theorem inv_of_hardwareReset (s : State) : (hardwareReset s).Inv where
  dinWf := reset_din_wf
  blenTlen := by simp
  dvalidPhase := by simp
  digestHash := by simp
  lastSticky := rfl

theorem perform_keeps_inv {a : HostAction} {s t : State} (hs : s.Inv) (h : perform a s = .next t) : t.Inv := by
  by_cases ha : ∃ w, a = .issue w
  · obtain ⟨w, rfl⟩ := ha
    obtain ⟨-, rfl⟩ | ⟨c, -, -, rfl⟩ | ⟨-, d, -, ho, rfl⟩ | ⟨-, -, rfl⟩ := perform_issue_cases h
    · exact inv_of_begin hs
    · exact inv_of_reject c hs
    · exact inv_of_update d hs ho
    · exact inv_of_result hs
  · obtain ⟨k, b, -, rfl⟩ | ⟨-, o, rfl⟩ | ⟨-, rfl⟩ := perform_port_cases (not_exists.1 ha) h
    · exact inv_of_writeDin k b hs
    · exact hs.congr hs.dinWf hs.lastSticky rfl rfl rfl ⟨rfl, rfl, rfl, rfl⟩
    · exact inv_of_hardwareReset s

/-- Settles O39: every host action keeps the invariant, whatever the host plans next. -/
theorem stepKeepsInvariant : Obligations.StepKeepsInvariant := fun _ _ hs h =>
  step_keeps (P := State.Inv)
    (fun _ _ hs => hs.congr hs.dinWf hs.lastSticky rfl rfl rfl ⟨rfl, rfl, rfl, rfl⟩)
    (fun _ _ _ hs h => perform_keeps_inv hs h) hs h

/-- Settles O40: no context is open, DVALID is 0, DIN is empty and LAST is OK. -/
theorem resetMeetsInvariant : Obligations.ResetMeetsInvariant where
  dinWf := reset_din_wf
  blenTlen := fun _ => rfl
  dvalidPhase := by simp [State.reset]
  digestHash := by simp [State.reset]
  lastSticky := rfl

/-! ### The message behind the context and the digest -/

/-- An action that leaves the context, DVALID and DIGEST alone leaves the message of both. -/
theorem State.HashesMessage.congr {s t : State} (hs : s.HashesMessage) (hphase : t.phase = s.phase)
    (hdvalid : t.dvalid = s.dvalid) (hdigest : t.digest = s.digest) (hctx : SameContext t s) : t.HashesMessage where
  absorbed := fun ho => by
    obtain ⟨m, hm⟩ := hs.absorbed (by rwa [ContextOpen, ← hphase])
    exact ⟨m, hm.congr hphase hctx.hash hctx.blen hctx.valid hctx.tlen⟩
  digest := by rw [hdvalid, hdigest]; exact hs.digest

theorem hashesMessage_of_begin (s : State) : (respond .ok (beginContext s)).HashesMessage where
  absorbed := fun _ => ⟨[], absorbed_of_begin s⟩
  digest := by simp

theorem hashesMessage_of_reject {s : State} (c : Response) (hs : s.HashesMessage) :
    (respond c (setSticky c s)).HashesMessage :=
  hs.congr (by simp) (by simp) (by simp) (.reject c s)

theorem hashesMessage_of_update {s : State} (d : List Byte) (hs : s.HashesMessage) (ho : ContextOpen s) :
    (respond .ok (updateContext d s)).HashesMessage where
  absorbed := fun _ => by
    obtain ⟨m, hm⟩ := hs.absorbed ho
    exact ⟨m ++ d, absorbed_of_update hm⟩
  digest := by simpa using hs.digest

theorem hashesMessage_of_result {s : State} (hs : s.HashesMessage) (ho : ContextOpen s) :
    (respond .ok (finishContext s)).HashesMessage where
  absorbed := by simp
  digest := fun _ => by
    obtain ⟨m, hm⟩ := hs.absorbed ho
    exact ⟨m, digest_of_result hm⟩

theorem hashesMessage_of_hardwareReset (s : State) : (hardwareReset s).HashesMessage where
  absorbed := by simp
  digest := by simp

theorem perform_keeps_hashesMessage {a : HostAction} {s t : State} (hs : s.HashesMessage)
    (h : perform a s = .next t) : t.HashesMessage := by
  by_cases ha : ∃ w, a = .issue w
  · obtain ⟨w, rfl⟩ := ha
    obtain ⟨-, rfl⟩ | ⟨c, -, -, rfl⟩ | ⟨-, d, -, ho, rfl⟩ | ⟨-, ho, rfl⟩ := perform_issue_cases h
    · exact hashesMessage_of_begin s
    · exact hashesMessage_of_reject c hs
    · exact hashesMessage_of_update d hs ho
    · exact hashesMessage_of_result hs ho
  · obtain ⟨k, b, -, rfl⟩ | ⟨-, o, rfl⟩ | ⟨-, rfl⟩ := perform_port_cases (not_exists.1 ha) h
    · exact hs.congr rfl rfl rfl ⟨rfl, rfl, rfl, rfl⟩
    · exact hs.congr rfl rfl rfl ⟨rfl, rfl, rfl, rfl⟩
    · exact hashesMessage_of_hardwareReset s

/-- Settles O43: BEGIN starts the empty message, an accepted UPDATE extends it, RESULT writes its MD5, and nothing else
touches the context or a valid DIGEST but to close or invalidate it. -/
theorem stepKeepsHashesMessage : Obligations.StepKeepsHashesMessage := fun _ _ hs h =>
  step_keeps (P := State.HashesMessage) (fun _ _ hs => hs.congr rfl rfl rfl ⟨rfl, rfl, rfl, rfl⟩)
    (fun _ _ _ hs h => perform_keeps_hashesMessage hs h) hs h

/-- Settles O44: after reset no context is open and no DIGEST is valid. -/
theorem resetHashesMessage : Obligations.ResetHashesMessage where
  absorbed := by simp [State.reset]
  digest := by simp [State.reset]

end Sys2Proof.Machine
end

section
/-! Proofs about the fields of R20 one by one: who writes LAST, the sticky bits, DVALID, DIGEST and DIN, and what the
host reads of them. -/

namespace Sys2Proof.Machine

/-! ### STATUS -/

/-- Every bit of STATUS (R31, R35): its field's, or 0. -/
theorem getLsbD_statusWord (s : State) (k : Nat) : (statusWord s).getLsbD k =
    if k < 2 then (phaseCode s.phase).getLsbD k
    else if k = 2 then s.dvalid
    else if k = 4 ∨ k = 5 then (responseCode s.last).getLsbD (k - 4)
    else if k = 8 then s.errIllegalS
    else if k = 9 then s.errMisuseS
    else if k = 10 then s.errLengthS
    else false := by
  by_cases hk : k < 11
  · interval_cases k <;> simp [statusWord, flagWord]
  · obtain ⟨j, rfl⟩ := Nat.exists_eq_add_of_le' (not_lt.1 hk)
    simp [statusWord, flagWord]

/-- Bits [1:0] of STATUS are PHASE (R31). -/
theorem statusWord_phase (s : State) : (statusWord s).extractLsb' 0 2 = phaseCode s.phase := by
  apply BitVec.eq_of_getLsbD_eq
  intro k hk
  simp [getLsbD_statusWord, hk]

/-- Bits [5:4] of STATUS are LAST (R31). -/
theorem statusWord_last (s : State) : (statusWord s).extractLsb' 4 2 = responseCode s.last := by
  apply BitVec.eq_of_getLsbD_eq
  intro k hk
  rw [BitVec.getLsbD_extractLsb', getLsbD_statusWord]
  interval_cases k <;> simp

/-- Bits [7:6] and [31:11] of STATUS are reserved (R35). -/
theorem statusWord_reserved (s : State) :
    (statusWord s).extractLsb' 6 2 = 0 ∧ (statusWord s).extractLsb' 11 21 = 0 := by
  refine ⟨BitVec.eq_of_getLsbD_eq fun k hk => ?_, BitVec.eq_of_getLsbD_eq fun k hk => ?_⟩ <;>
    rw [BitVec.getLsbD_extractLsb', Nat.add_comm, getLsbD_statusWord]
  · interval_cases k <;> simp
  · simp

/-- STATUS is a function of six fields. -/
theorem statusWord_congr {s t : State} (hphase : t.phase = s.phase) (hdvalid : t.dvalid = s.dvalid)
    (hlast : t.last = s.last) (hillegal : t.errIllegalS = s.errIllegalS) (hmisuse : t.errMisuseS = s.errMisuseS)
    (hlength : t.errLengthS = s.errLengthS) : statusWord t = statusWord s := by
  simp only [statusWord, hphase, hdvalid, hlast, hillegal, hmisuse, hlength]

theorem statusWord_reset : statusWord State.reset = 0 := by decide

/-- Settles O29: the bits by `getLsbD_statusWord`; only a command and a reset write one of the six fields. -/
theorem statusLayout : Obligations.StatusLayout := by
  refine ⟨fun s => ?_, statusWord_reset, fun s rest hp => step_of_cons hp, fun s t a rest hp hw hr h => ?_⟩
  · obtain ⟨hlow, hhigh⟩ := statusWord_reserved s
    refine ⟨?_, ?_, ?_, ?_, hlow, ?_, ?_, ?_, hhigh⟩
    · rw [statusWord_phase]; cases s.phase <;> rfl
    · exact getLsbD_statusWord s 2
    · exact getLsbD_statusWord s 3
    · rw [statusWord_last]; cases s.last <;> rfl
    · exact getLsbD_statusWord s 8
    · exact getLsbD_statusWord s 9
    · exact getLsbD_statusWord s 10
  · obtain ⟨k, b, -, rfl⟩ | ⟨-, o, rfl⟩ | ⟨hreset, -⟩ := perform_port_cases hw (perform_of_step hp h)
    · exact statusWord_congr rfl rfl rfl rfl rfl rfl
    · exact statusWord_congr rfl rfl rfl rfl rfl rfl
    · exact absurd hreset hr

/-! ### LAST and the sticky bits -/

/-- R32, R180: every command answers the host with the code it leaves in LAST. -/
theorem obs_of_issue {w : Word} {s t : State} (h : perform (.issue w) s = .next t) :
    t.obs = s.obs ++ [.response t.last] := by
  obtain ⟨-, rfl⟩ | ⟨c, -, -, rfl⟩ | ⟨n, d, -, -, rfl⟩ | ⟨-, -, rfl⟩ := perform_issue_cases h <;> simp

/-- R33: a command sets the sticky bit of the error it answers and leaves the others. -/
theorem sticky_of_issue {w : Word} {s t : State} (h : perform (.issue w) s = .next t) :
    t.errIllegalS = (s.errIllegalS || t.last == .errIllegal) ∧
    t.errMisuseS = (s.errMisuseS || t.last == .errMisuse) ∧
    t.errLengthS = (s.errLengthS || t.last == .errLength) := by
  obtain ⟨-, rfl⟩ | ⟨c, -, -, rfl⟩ | ⟨n, d, -, -, rfl⟩ | ⟨-, -, rfl⟩ := perform_issue_cases h <;> simp

/-- Settles O11: a command by `obs_of_issue`; of the other actions only a reset writes LAST. -/
theorem lastHoldsTheLatestResponse : Obligations.LastHoldsTheLatestResponse := by
  refine ⟨fun s t w rest hp h => ?_, fun s t a rest hp h hw => ?_, fun s => ?_⟩
  · exact obs_of_issue (s := withPending rest s) (perform_of_step hp h)
  · obtain ⟨k, b, rfl, rfl⟩ | ⟨hr, o, rfl⟩ | ⟨rfl, rfl⟩ := perform_port_cases hw (perform_of_step hp h)
    · rfl
    · rw [if_neg hr]; rfl
    · rfl
  · rw [statusWord_last]; cases s.last <;> rfl

/-- Settles O12: a command by `sticky_of_issue`; of the other actions only a reset writes the sticky bits. -/
theorem stickyBitsClearedOnlyByReset : Obligations.StickyBitsClearedOnlyByReset := by
  intro s t a rest hp h
  have hperf := perform_of_step hp h
  refine ⟨?_, ?_, fun hr hw => ?_⟩
  · rintro rfl
    cases hperf
    exact ⟨rfl, rfl, rfl⟩
  · rintro - w rfl
    exact sticky_of_issue (s := withPending rest s) hperf
  · obtain ⟨k, b, -, rfl⟩ | ⟨-, o, rfl⟩ | ⟨hreset, -⟩ := perform_port_cases hw hperf
    · exact ⟨rfl, rfl, rfl⟩
    · exact ⟨rfl, rfl, rfl⟩
    · exact absurd hreset hr

/-! ### DVALID and DIGEST -/

/-- A host action is the command `i` exactly when its word decodes to `i`. -/
theorem issue_eq_command_iff {w : Word} {i : Instr} : HostAction.issue w = .issue (encode i) ↔ decode w = .ok i := by
  rw [HostAction.issue.injEq, decode_eq_ok_iff]

/-- Settles O27: only BEGIN, an accepted RESULT and a reset write DVALID; a rejected command is no BEGIN and does not
answer OK. -/
theorem dvalidWrittenByBeginResultReset : Obligations.DvalidWrittenByBeginResultReset := by
  intro s t a rest hp h
  have hperf := perform_of_step hp h
  by_cases ha : ∃ w, a = .issue w
  · obtain ⟨w, rfl⟩ := ha
    simp only [issue_eq_command_iff]
    obtain ⟨hd, rfl⟩ | ⟨c, hc, hd, rfl⟩ | ⟨n, d, hd, -, rfl⟩ | ⟨hd, -, rfl⟩ := perform_issue_cases hperf
    · simp [hd]
    · simp [hd, hc, withPending]
    · simp [hd, withPending]
    · simp [hd]
  · have hw := not_exists.1 ha
    obtain ⟨k, b, rfl, rfl⟩ | ⟨hr, o, rfl⟩ | ⟨rfl, rfl⟩ := perform_port_cases hw hperf
    · simp [withPending]
    · simp [hw, hr, withPending]
    · simp

/-- Settles O28: of all actions only an accepted RESULT and a reset write DIGEST. -/
theorem digestWrittenOnlyByResult : Obligations.DigestWrittenOnlyByResult := by
  intro s t a rest hp h hresult hr
  have hperf := perform_of_step hp h
  by_cases ha : ∃ w, a = .issue w
  · obtain ⟨w, rfl⟩ := ha
    rw [issue_eq_command_iff] at hresult
    obtain ⟨-, rfl⟩ | ⟨c, -, -, rfl⟩ | ⟨n, d, -, -, rfl⟩ | ⟨hd, -, rfl⟩ := perform_issue_cases hperf
    · rfl
    · simp [withPending]
    · simp [withPending]
    · exact absurd ⟨hd, rfl⟩ hresult
  · obtain ⟨k, b, -, rfl⟩ | ⟨-, o, rfl⟩ | ⟨hreset, -⟩ := perform_port_cases (not_exists.1 ha) hperf
    · rfl
    · rfl
    · exact absurd hreset hr

/-- Settles O30: both branches are those of the port's own read. -/
theorem digestReadNeedsDvalid : Obligations.DigestReadNeedsDvalid := fun _ _ hp => step_of_cons hp

/-! ### DIN and the hardware reset -/

/-- Settles O20: an accepted UPDATE faults when it has no sample, which is when one of its bytes is unwritten. -/
theorem updateFaultsOnlyOnUnwrittenDin : Obligations.UpdateFaultsOnlyOnUnwrittenDin := by
  intro n s f
  constructor
  · intro h
    obtain ⟨hf, m, hm, ho, hle, hnone⟩ := exec_not_next.1 f h
    obtain rfl := Instr.update.inj hm
    exact ⟨hf, ho, hle, dinSample_eq_none.1 hnone⟩
  · rintro ⟨rfl, ho, hle, hk⟩
    exact exec_update_of_unwritten ho hle (dinSample_eq_none.2 hk)

/-- A hardware reset completes with the reset's own writes (R200). -/
theorem step_of_reset {s : State} {rest : List HostAction} (hp : s.pending = .reset :: rest) :
    step s = .next (hardwareReset (withPending rest s)) :=
  step_of_cons hp

/-- Settles O31: read-after-write of DIN, the frame of the commands, and the empty DIN of a reset. -/
theorem dinHoldsWhatTheHostWrote : Obligations.DinHoldsWhatTheHostWrote := by
  refine ⟨fun s k b rest hp => ?_, fun i s t h => (exec_din_pending h).1, fun s rest hp => ?_⟩
  · exact ⟨memWrite s.din k.val b, step_of_cons hp, memRead_memWrite s.din k.val b⟩
  · exact ⟨_, step_of_reset hp, memRead_nil⟩

/-- Settles O37: the fields are written by the reset itself, and STATUS is a function of them. -/
theorem resetLeavesVisibleStateClear : Obligations.ResetLeavesVisibleStateClear := by
  rintro t (rfl | ⟨s, rest, hp, h⟩)
  · exact ⟨rfl, rfl, rfl, rfl, rfl, rfl, memRead_nil, statusWord_reset⟩
  · obtain rfl := Host.Outcome.next.inj ((step_of_reset hp).symm.trans h)
    refine ⟨rfl, rfl, rfl, rfl, rfl, rfl, memRead_nil, ?_⟩
    exact (statusWord_congr rfl rfl rfl rfl rfl rfl).trans statusWord_reset

end Sys2Proof.Machine
end

section
/-! Proofs about the digest RESULT writes (20_memory.md R55): where the bytes of the hash words stand. -/

namespace Sys2Proof.Machine

/-- R11: byte `k` of `le32` is bits 8k+7..8k of the word. -/
theorem getElem_le32 (w : Word) (k : Fin 4) : (le32 w)[k.val]'k.isLt = w.extractLsb' (8 * k.val) 8 := by
  fin_cases k <;> rfl

/-- R55: the four bytes of hash word `j` stand in the digest from byte 4j on, in the order of `le32`. -/
theorem getElem_serialize_eq_le32 (h : Hash) (j k : Fin 4) :
    (serialize h)[4 * j.val + k.val]'(by omega) = (le32 (hashWord h j))[k.val]'k.isLt := by
  fin_cases j <;> fin_cases k <;> rfl

/-- Settles O22: RESULT in an open context answers the writes of `finishContext`, whose DIGEST serializes its H. -/
theorem resultWritesDigest : Obligations.ResultWritesDigest := by
  intro s ho
  refine ⟨respond .ok (finishContext s), exec_result_of_open ho, rfl, fun j k => ?_,
    rfl, rfl, rfl, rfl, rfl, rfl, rfl, rfl, fun _ => rfl⟩
  exact (getElem_serialize_eq_le32 (finalHash s) j k).trans (getElem_le32 _ k)

end Sys2Proof.Machine
end

section
/-! Proofs about the encoding (30_encoding.md): the decoder against the encoder, the fields and the opcode table, and
what an ILLEGAL word does. -/

namespace Sys2Proof

/-- Settles O3: an accepted word is made of the fields the decoder read, and the decoder reads back what the encoder
wrote. -/
theorem decodeAndEncodeAgree : Obligations.DecodeAndEncodeAgree := fun _ _ => decode_eq_ok_iff

/-! ### The fields of a word -/

/-- R71: bit `k` of a word, from 15 on, is bit `k - 15` of RSV. -/
theorem getLsbD_rsvField (w : Word) {k : Nat} (hlow : 15 ≤ k) (hhigh : k ≤ 31) :
    (rsvField w).getLsbD (k - 15) = w.getLsbD k := by
  have hlt : k - 15 < 17 := by omega
  simp [rsvField, hlt, Nat.add_sub_cancel' hlow]

/-- Settles O2: every command has RSV = 0. -/
theorem reservedBitMakesWordIllegal : Obligations.ReservedBitMakesWordIllegal := by
  intro w k hlow hhigh hbit i h
  obtain ⟨hrsv, -⟩ := decode_ok h
  rw [← getLsbD_rsvField w hlow hhigh, hrsv] at hbit
  simp at hbit

/-- Which words are commands, by their fields (R75). -/
theorem exists_decode_ok_iff (w : Word) : (∃ i, decode w = .ok i) ↔
    rsvField w = 0 ∧ ((opcField w = 0x01 ∧ lenField w = 0) ∨ opcField w = 0x02 ∨
      (opcField w = 0x03 ∧ lenField w = 0)) := by
  constructor
  · rintro ⟨i, h⟩
    obtain ⟨hrsv, ⟨hopc, hlen, -⟩ | ⟨hopc, -⟩ | ⟨hopc, hlen, -⟩⟩ := decode_ok h
    · exact ⟨hrsv, .inl ⟨hopc, hlen⟩⟩
    · exact ⟨hrsv, .inr (.inl hopc)⟩
    · exact ⟨hrsv, .inr (.inr ⟨hopc, hlen⟩)⟩
  · rintro ⟨hrsv, ⟨hopc, hlen⟩ | hopc | ⟨hopc, hlen⟩⟩
    · exact ⟨.begin, by simp [decode, hrsv, hopc, hlen]⟩
    · exact ⟨.update (lenField w), by simp [decode, hrsv, hopc]⟩
    · exact ⟨.result, by simp [decode, hrsv, hopc, hlen]⟩

/-! ### The opcode table -/

theorem matches_iff {r : OpcodeRow} {w : Word} : r.matches w = true ↔ w &&& r.mask = r.pattern := beq_iff_eq

/-- A row that fixes every bit is matched by its pattern only. -/
theorem eq_pattern_of_matches {r : OpcodeRow} {w : Word} (hmask : r.mask = BitVec.allOnes 32)
    (h : r.matches w = true) : w = r.pattern := by
  rw [← matches_iff.1 h, hmask, BitVec.and_allOnes]

/-- The bits UPDATE's row leaves free are LEN, in its place (R71, R76). -/
theorem lenField_shifted (w : Word) : (lenField w).setWidth 32 <<< 8 = w &&& ~~~updateRow.mask := by
  apply BitVec.eq_of_getLsbD_eq
  intro k hk
  interval_cases k <;> simp [lenField, updateRow]

theorem eq_encode_update_of_matches {w : Word} (h : updateRow.matches w = true) :
    w = encode (.update (lenField w)) := by
  calc w = (w &&& updateRow.mask) ||| (w &&& ~~~updateRow.mask) := by
        rw [← BitVec.and_or_distrib_left, BitVec.or_not_self, BitVec.and_allOnes]
    _ = encode (.update (lenField w)) := by rw [matches_iff.1 h, ← lenField_shifted]; rfl

/-- The words of the table's rows are the words of the commands (R76). -/
theorem wellFormedWord_iff_exists_encode (w : Word) : wellFormedWord w = true ↔ ∃ i, w = encode i := by
  constructor
  · intro h
    obtain hrow | hrow | hrow :
        beginRow.matches w = true ∨ updateRow.matches w = true ∨ resultRow.matches w = true := by
      simpa [wellFormedWord, opcodeTable] using h
    · exact ⟨.begin, eq_pattern_of_matches rfl hrow⟩
    · exact ⟨_, eq_encode_update_of_matches hrow⟩
    · exact ⟨.result, eq_pattern_of_matches rfl hrow⟩
  · rintro ⟨i, rfl⟩
    cases i with
    | begin => exact Laws.Encoding.begin.1
    | update n => exact (Laws.Encoding.update n).1
    | result => exact Laws.Encoding.result.1

theorem encode_update_eq_ofNat (n : BitVec 7) : encode (.update n) = BitVec.ofNat 32 (2 + 256 * n.toNat) :=
  (eq_iff_toNat_eq (by omega)).2 (toNat_encode_update n)

/-- The words of the commands as numbers (R76): 1, 2 + 256 n for n in 0..127, and 3. -/
theorem exists_encode_iff (w : Word) : (∃ i, w = encode i) ↔
    w = 0x00000001#32 ∨ (∃ n : Nat, n ≤ 127 ∧ w = BitVec.ofNat 32 (2 + 256 * n)) ∨ w = 0x00000003#32 := by
  constructor
  · rintro ⟨i, rfl⟩
    cases i with
    | begin => exact .inl rfl
    | update n => exact .inr (.inl ⟨n.toNat, by omega, encode_update_eq_ofNat n⟩)
    | result => exact .inr (.inr rfl)
  · rintro (rfl | ⟨n, hn, rfl⟩ | rfl)
    · exact ⟨.begin, rfl⟩
    · refine ⟨.update (BitVec.ofNat 7 n), ?_⟩
      rw [encode_update_eq_ofNat, BitVec.toNat_ofNat, Nat.mod_eq_of_lt (by omega)]
    · exact ⟨.result, rfl⟩

/-- Settles O4: the decoder's words and the table's are both the words of the commands. -/
theorem legalWordsAreTheTablesRows : Obligations.LegalWordsAreTheTablesRows := fun w => by
  simp only [decode_eq_ok_iff, wellFormedWord_iff_exists_encode, exists_encode_iff, true_and]

/-- Settles O1, by running the decoder on each word. -/
theorem decodesTheSpecsWords : Obligations.DecodesTheSpecsWords := by
  unfold Obligations.DecodesTheSpecsWords
  decide

end Sys2Proof

namespace Sys2Proof.Machine

/-! ### ILLEGAL words -/

/-- A word that is no command has one of the decoder's three errors. -/
theorem exists_decode_error {w : Word} (h : ∀ i, decode w ≠ .ok i) : ∃ e, decode w = .error e := by
  cases hd : decode w with
  | ok i => exact absurd hd (h i)
  | error e => exact ⟨e, rfl⟩

/-- Settles O7: the words are those outside `exists_decode_ok_iff`; the step is a rejection with ERR_ILLEGAL. -/
theorem illegalWordChangesLastAndStickyOnly : Obligations.IllegalWordChangesLastAndStickyOnly := by
  refine ⟨fun w => ?_, fun s w rest hp h => ?_⟩
  · rw [← not_exists, exists_decode_ok_iff]
    change _ ↔ (opcField w ≠ 0x01 ∧ opcField w ≠ 0x02 ∧ opcField w ≠ 0x03) ∨ rsvField w ≠ 0 ∨
      ((opcField w = 0x01 ∨ opcField w = 0x03) ∧ lenField w ≠ 0)
    have h12 : opcField w = 0x01 → opcField w ≠ 0x02 := fun e => by rw [e]; decide
    have h32 : opcField w = 0x03 → opcField w ≠ 0x02 := fun e => by rw [e]; decide
    tauto
  · obtain ⟨e, he⟩ := exists_decode_error h
    exact (step_of_cons hp).trans (perform_issue_error he (withPending rest s))

end Sys2Proof.Machine
end

section
/-! Proofs about the pseudo-commands DIGEST2 and DIGESTN (30_encoding.md R88, R89). -/

namespace Sys2Proof.Machine

/-- Buffers absorbed one after another are absorbed as their concatenation (R89). -/
theorem performAll_updateBs {m : List Byte} (ins : List (List Byte)) {s : State} (h : Absorbed m s) :
    ∃ t, performAll (ins.flatMap updateB) s = .next t ∧ Absorbed (m ++ ins.flatten) t := by
  induction ins generalizing m s with
  | nil => exact ⟨s, rfl, by simpa using h⟩
  | cons d ins ih =>
    obtain ⟨u, hu, hd⟩ := performAll_updateB d h
    obtain ⟨t, ht, hm⟩ := ih hd
    refine ⟨t, ?_, by simpa using hm⟩
    rw [List.flatMap_cons, performAll_append_of_next hu, ht]

theorem perform_command (i : Instr) (s : State) : perform (command i) s = exec i s :=
  perform_issue_ok (decode_encode i) s

/-- RESULT and a read of DIGEST, for a context that has absorbed `m`: the digest is MD5 of `m` and the host reads it. -/
theorem performAll_result_read {m : List Byte} {s : State} (h : Absorbed m s) :
    ∃ t, performAll [command .result, .readDigest] s = .next t ∧ t.phase = .finalized ∧ t.dvalid = true ∧
      t.digest = md5 m ∧ t.obs.getLast? = some (.digest (md5 m)) := by
  have hresult : perform (command .result) s = .next (respond .ok (finishContext s)) :=
    (perform_command _ s).trans (exec_result_of_open h.isOpen)
  have hdigest := digest_of_result h
  refine ⟨observe (.digest (md5 m)) (respond .ok (finishContext s)), ?_, rfl, rfl, hdigest, by simp⟩
  rw [performAll_cons_of_next hresult, ← hdigest]
  rfl

/-- DIGESTN, from any state. -/
theorem runActions_digestN (ins : List (List Byte)) (s : State) :
    ∃ t, runActions (digestN ins) s = .next t ∧ t.phase = .finalized ∧ t.dvalid = true ∧
      t.digest = md5 ins.flatten ∧ t.obs.getLast? = some (.digest (md5 ins.flatten)) := by
  obtain ⟨u, hu, hm⟩ := performAll_updateBs ins (absorbed_of_begin (withPending [] s))
  obtain ⟨t, ht, hend⟩ := performAll_result_read hm
  refine ⟨t, ?_, hend⟩
  have hbegin := (perform_command .begin (withPending [] s)).trans (exec_begin _)
  rw [runActions_eq, digestN, List.append_assoc, List.singleton_append, performAll_cons_of_next hbegin,
    performAll_append_of_next hu, ht]

/-- DIGEST2 is DIGESTN of two buffers. -/
theorem digest2_eq_digestN (in1 in2 : List Byte) : digest2 in1 in2 = digestN [in1, in2] := by
  simp [digest2, digestN]

/-- Settles O47: DIGEST2 is a DIGESTN, which starts the empty message, absorbs every buffer, and reads the digest that
RESULT wrote. -/
theorem digestPseudoCommandsReadMd5 : Obligations.DigestPseudoCommandsReadMd5 := by
  refine ⟨fun s in1 in2 => ?_, fun s ins => runActions_digestN ins s⟩
  rw [digest2_eq_digestN]
  simpa using runActions_digestN [in1, in2] s

end Sys2Proof.Machine
end

section
/-! Proofs that what the spec leaves unspecified reaches no output (40_context_ops.md R134): two states the host cannot
tell apart step alike. -/

namespace Sys2Proof.Machine

/-- The part of a state the host can always see or plan by; the rest is blank. -/
def hostView (s : State) : State :=
  { State.reset with
    phase := s.phase, dvalid := s.dvalid, last := s.last, errIllegalS := s.errIllegalS, errMisuseS := s.errMisuseS,
    errLengthS := s.errLengthS, din := s.din, pending := s.pending, obs := s.obs }

theorem sameToHost_iff {s t : State} : SameToHost s t ↔
    hostView s = hostView t ∧ (ContextOpen s → SameContext s t) ∧ (s.dvalid = true → s.digest = t.digest) := by
  constructor
  · rintro ⟨h1, h2, h3, h4, h5, h6, h7, h8, h9, hctx, hdigest⟩
    exact ⟨by simp only [hostView, h1, h2, h3, h4, h5, h6, h7, h8, h9], hctx, hdigest⟩
  · rintro ⟨hview, hctx, hdigest⟩
    simp only [hostView, State.mk.injEq, true_and, and_true] at hview
    obtain ⟨h1, h2, h3, h4, h5, h6, h7, h8, h9⟩ := hview
    exact ⟨h1, h2, h3, h4, h5, h6, h7, h8, h9, hctx, hdigest⟩

theorem SameToHost.contextOpen_iff {s t : State} (h : SameToHost s t) : ContextOpen t ↔ ContextOpen s := by
  rw [ContextOpen, ContextOpen, h.phase]

/-- An update whose visible part is a function of the visible part keeps two states alike, if their contexts (where one
is open) and their digests (where one is valid) come out alike. -/
theorem SameToHost.map {s t : State} (h : SameToHost s t) (f g : State → State)
    (hview : ∀ u, hostView (f u) = g (hostView u)) (hctx : ContextOpen (f s) → SameContext (f s) (f t))
    (hdigest : (f s).dvalid = true → (f s).digest = (f t).digest) : SameToHost (f s) (f t) :=
  sameToHost_iff.2 ⟨by rw [hview, hview, (sameToHost_iff.1 h).1], hctx, hdigest⟩

/-- An update that leaves the context, PHASE, DVALID and DIGEST alone, and acts on the visible part by itself. -/
structure LeavesContext (f : State → State) : Prop where
  view : ∀ s, hostView (f s) = f (hostView s)
  context : ∀ s, SameContext (f s) s
  phase : ∀ s, (f s).phase = s.phase
  dvalid : ∀ s, (f s).dvalid = s.dvalid
  digest : ∀ s, (f s).digest = s.digest

theorem leavesContext_withPending (p : List HostAction) : LeavesContext (withPending p) where
  view _ := rfl
  context _ := ⟨rfl, rfl, rfl, rfl⟩
  phase _ := rfl
  dvalid _ := rfl
  digest _ := rfl

theorem leavesContext_observe (o : Observation) : LeavesContext (observe o) where
  view _ := rfl
  context _ := ⟨rfl, rfl, rfl, rfl⟩
  phase _ := rfl
  dvalid _ := rfl
  digest _ := rfl

theorem leavesContext_writeDinByte (k : Fin 64) (b : Byte) : LeavesContext (writeDinByte k b) where
  view _ := rfl
  context _ := ⟨rfl, rfl, rfl, rfl⟩
  phase _ := rfl
  dvalid _ := rfl
  digest _ := rfl

theorem leavesContext_reject (c : Response) : LeavesContext (reject c) where
  view _ := by cases c <;> rfl
  context s := .reject c s
  phase s := by simp
  dvalid s := by simp
  digest s := by simp

theorem SameToHost.of_leavesContext {s t : State} (h : SameToHost s t) {f : State → State} (hf : LeavesContext f) :
    SameToHost (f s) (f t) := by
  refine h.map f f hf.view (fun ho => ?_) (fun hv => ?_)
  · rw [ContextOpen, hf.phase] at ho
    exact (hf.context s).trans ((h.context ho).trans (hf.context t).symm)
  · rw [hf.dvalid] at hv
    rw [hf.digest, hf.digest, h.digest hv]

/-- R101: BEGIN writes the whole context but the unspecified bytes of BUF. -/
theorem SameToHost.begin {s t : State} (h : SameToHost s t) :
    SameToHost (respond .ok (beginContext s)) (respond .ok (beginContext t)) :=
  h.map (fun u => respond .ok (beginContext u)) (fun u => respond .ok { u with phase := .fresh, dvalid := false })
    (fun _ => rfl) (fun _ => ⟨by simp, by simp, by simp, by simp⟩) nofun

/-- R23: UPDATE reads of BUF the valid bytes only. -/
theorem SameToHost.update {s t : State} (h : SameToHost s t) (ho : ContextOpen s) (d : List Byte) :
    SameToHost (respond .ok (updateContext d s)) (respond .ok (updateContext d t)) :=
  h.map (fun u => respond .ok (updateContext d u)) (fun u => respond .ok { u with phase := .absorbing })
    (fun _ => by simp [hostView, respond, observe])
    (fun _ => (SameContext.respond ..).trans (((h.context ho).update d).trans (SameContext.respond ..).symm))
    (by simpa using h.digest)

/-- R120, R125: RESULT reads the context only, and closes it. -/
theorem SameToHost.result {s t : State} (h : SameToHost s t) (ho : ContextOpen s) :
    SameToHost (respond .ok (finishContext s)) (respond .ok (finishContext t)) :=
  h.map (fun u => respond .ok (finishContext u))
    (fun u => respond .ok { u with phase := .finalized, dvalid := true }) (fun _ => rfl)
    (by simp) (fun _ => congrArg serialize (h.context ho).finalHash)

/-- R40: a hardware reset leaves no context open and no digest valid. -/
theorem SameToHost.hardwareReset {s t : State} (h : SameToHost s t) :
    SameToHost (Machine.hardwareReset s) (Machine.hardwareReset t) :=
  h.map Machine.hardwareReset (fun u => { State.reset with pending := u.pending, obs := u.obs }) (fun _ => rfl)
    (by simp) nofun

/-- Two outcomes the host cannot tell apart: next states it cannot tell apart, or the same fault. -/
inductive SameOutcome : Host.Outcome State Fault Refusal → Host.Outcome State Fault Refusal → Prop
  | next {s t : State} (h : SameToHost s t) : SameOutcome (.next s) (.next t)
  | fault (f : Fault) : SameOutcome (.fault f) (.fault f)

/-- A rejection is a function of the visible part of the state. -/
theorem SameOutcome.reject {s t : State} (h : SameToHost s t) (c : Response) :
    SameOutcome (.next (respond c (setSticky c s))) (.next (respond c (setSticky c t))) :=
  .next (h.of_leavesContext (leavesContext_reject c))

theorem exec_update_same {s t : State} (h : SameToHost s t) (n : BitVec 7) :
    SameOutcome (exec (.update n) s) (exec (.update n) t) := by
  by_cases ho : ContextOpen s
  · have hot := h.contextOpen_iff.2 ho
    by_cases hn : 64 < n.toNat
    · rw [exec_update_of_long ho hn, exec_update_of_long hot hn]
      exact .reject h .errLength
    · have hle := not_lt.1 hn
      have hdin := dinSample_congr (n := n.toNat) h.din
      cases hd : dinSample n.toNat s with
      | none =>
        rw [exec_update_of_unwritten ho hle hd, exec_update_of_unwritten hot hle (hdin.symm.trans hd)]
        exact .fault _
      | some d =>
        rw [exec_update_of_sample ho hle hd, exec_update_of_sample hot hle (hdin.symm.trans hd)]
        exact .next (h.update ho d)
  · have hc := closed_iff_not_open.2 ho
    have hct := closed_iff_not_open.2 (mt h.contextOpen_iff.1 ho)
    rw [exec_update_of_closed n hc, exec_update_of_closed n hct]
    exact .reject h .errMisuse

theorem exec_result_same {s t : State} (h : SameToHost s t) : SameOutcome (exec .result s) (exec .result t) := by
  by_cases ho : ContextOpen s
  · rw [exec_result_of_open ho, exec_result_of_open (h.contextOpen_iff.2 ho)]
    exact .next (h.result ho)
  · have hct := closed_iff_not_open.2 (mt h.contextOpen_iff.1 ho)
    rw [exec_result_of_closed (closed_iff_not_open.2 ho), exec_result_of_closed hct]
    exact .reject h .errMisuse

theorem exec_same (i : Instr) {s t : State} (h : SameToHost s t) : SameOutcome (exec i s) (exec i t) := by
  cases i with
  | begin => exact .next h.begin
  | update n => exact exec_update_same h n
  | result => exact exec_result_same h

/-- A read of DIGEST (R28). -/
theorem perform_readDigest (s : State) : perform .readDigest s =
    if s.dvalid = true then .next (observe (.digest s.digest) s) else .fault .digestNotValid := rfl

theorem perform_readDigest_same {s t : State} (h : SameToHost s t) :
    SameOutcome (perform .readDigest s) (perform .readDigest t) := by
  rw [perform_readDigest, perform_readDigest, ← h.dvalid]
  by_cases hv : s.dvalid = true
  · rw [if_pos hv, if_pos hv, h.digest hv]
    exact .next (h.of_leavesContext (leavesContext_observe _))
  · rw [if_neg hv, if_neg hv]
    exact .fault _

theorem perform_same (a : HostAction) {s t : State} (h : SameToHost s t) :
    SameOutcome (perform a s) (perform a t) := by
  cases a with
  | issue w =>
    cases hd : decode w with
    | ok i =>
      rw [perform_issue_ok hd, perform_issue_ok hd]
      exact exec_same i h
    | error e =>
      rw [perform_issue_error hd, perform_issue_error hd]
      exact .reject h .errIllegal
  | writeDin k b => exact .next (h.of_leavesContext (leavesContext_writeDinByte k b))
  | readStatus =>
    have hstatus : statusWord s = statusWord t :=
      statusWord_congr h.phase h.dvalid h.last h.errIllegalS h.errMisuseS h.errLengthS
    change SameOutcome (.next (observe (.status (statusWord s)) s)) (.next (observe (.status (statusWord t)) t))
    rw [hstatus]
    exact .next (h.of_leavesContext (leavesContext_observe _))
  | readDigest => exact perform_readDigest_same h
  | reset => exact .next h.hardwareReset

theorem step_same {s t : State} (h : SameToHost s t) : SameOutcome (step s) (step t) := by
  cases hp : s.pending with
  | nil =>
    rw [step_of_nil hp, step_of_nil (h.pending.symm.trans hp)]
    exact .next h
  | cons a rest =>
    rw [step_of_cons hp, step_of_cons (h.pending.symm.trans hp)]
    exact perform_same a (h.of_leavesContext (leavesContext_withPending rest))

/-- Settles O48: every host action keeps two states alike, and faults on the parts they share. -/
theorem unspecifiedValuesReachNoOutput : Obligations.UnspecifiedValuesReachNoOutput := by
  intro s t h
  have hsame := step_same h
  generalize step s = o, step t = p at hsame ⊢
  cases hsame with
  | next h => exact h
  | fault f => rfl

end Sys2Proof.Machine
end

section
/-! Proofs about the three commands of a context, one step each (40_context_ops.md R100 to R130). -/

namespace Sys2Proof.Machine

/-- Settles O5: the step takes the action, and the word decodes to `i`. -/
theorem stepRunsDecodedCommand : Obligations.StepRunsDecodedCommand := fun s _ _ rest hp hd =>
  (step_of_cons hp).trans (perform_issue_ok hd (withPending rest s))

/-! ### UPDATE -/

/-- Settles O15: the phase check comes first. -/
theorem updateWithoutContextIsMisuse : Obligations.UpdateWithoutContextIsMisuse := fun n _ hc =>
  exec_update_of_closed n hc

/-- Settles O16: the length check comes before the bytes. -/
theorem updateTooLongIsLengthError : Obligations.UpdateTooLongIsLengthError := fun _ _ ho hn =>
  exec_update_of_long ho hn

/-- R113: an UPDATE of no bytes only moves to ABSORBING. -/
theorem updateContext_nil_eq (s : State) : updateContext [] s = { s with phase := .absorbing } := by
  simp [updateContext, absorb]

/-- Settles O19: a sample of no bytes always exists, and no bytes are absorbed. -/
theorem updateZeroChangesPhaseAndLastOnly : Obligations.UpdateZeroChangesPhaseAndLastOnly := by
  intro s ho
  rw [exec_update_of_sample (n := 0) ho (by simp) (dinSample_zero s), updateContext_nil_eq]
  rfl

/-- An UPDATE of at most 64 written bytes completes with its sample (R105, R112). -/
theorem exec_update_of_written {s : State} {n : BitVec 7} (ho : ContextOpen s) (hn : n.toNat ≤ 64)
    (hw : DinWritten n.toNat s) : ∃ d, exec (.update n) s = .next (respond .ok (updateContext d s)) ∧
      d.length = n.toNat ∧ ∀ k, k < n.toNat → memRead s.din k = d[k]? := by
  obtain ⟨d, hd⟩ := dinSample_of_written hw
  exact ⟨d, exec_update_of_sample ho hn hd, dinSample_some hd⟩

/-- R110: bytes that do not fill the block are appended. -/
theorem absorb_of_room {d : List Byte} {s : State} (h : s.blen.toNat + d.length < 64) :
    (absorb d s).h = s.h ∧ (absorb d s).blen.toNat = s.blen.toNat + d.length ∧
      bufValid (absorb d s) = bufValid s ++ d := by
  obtain ⟨hh, hl, hv⟩ := absorb_spec d s
  have hq : (s.blen.toNat + d.length) / 64 = 0 := by omega
  rw [List.length_append, length_bufValid] at hh hl hv
  rw [hq] at hh hv
  exact ⟨hh, by omega, hv⟩

/-- R110: at most 64 bytes that fill the block run `Compress` once, and the rest stays in the buffer. -/
theorem absorb_of_full {d : List Byte} {s : State} (h : 64 ≤ s.blen.toNat + d.length) (hd : d.length ≤ 64) :
    (absorb d s).h = compress s.h (blockAt (bufValid s ++ d) 0) ∧
      (absorb d s).blen.toNat = s.blen.toNat + d.length - 64 ∧
      bufValid (absorb d s) = (bufValid s ++ d).drop 64 := by
  obtain ⟨hh, hl, hv⟩ := absorb_spec d s
  have hq : (s.blen.toNat + d.length) / 64 = 1 := by omega
  rw [List.length_append, length_bufValid] at hh hl hv
  rw [hq] at hh hv
  exact ⟨hh, by omega, hv⟩

/-- Settles O17: the sample is absorbed, without or with one `Compress`, and `updateContext` touches nothing else. -/
theorem updateAbsorbsDinBytes : Obligations.UpdateAbsorbsDinBytes := by
  intro n s ho hn hw
  obtain ⟨d, hnext, hlen, hread⟩ := exec_update_of_written ho hn hw
  refine ⟨d, _, hnext, hlen, hread, ?_, by simp⟩
  rw [respond_h, updateContext_h, respond_blen, updateContext_blen, bufValid_respond, bufValid_updateContext, ← hlen]
  split
  · next hroom => exact absorb_of_room hroom
  · next hfull => exact absorb_of_full (not_lt.1 hfull) (by omega)

/-- Settles O18: of the outcomes of an UPDATE only the accepted one writes TLEN, and it alone answers OK. -/
theorem tlenCountsAbsorbedBytes : Obligations.TlenCountsAbsorbedBytes := by
  intro n s t h
  obtain ⟨hi, -⟩ | ⟨-, -, rfl⟩ | ⟨m, -, -, -, rfl⟩ | ⟨m, d, hm, -, -, hd, rfl⟩ | ⟨hi, -⟩ := exec_cases h
  · cases hi
  · simp
  · simp
  · obtain rfl := Instr.update.inj hm
    simp [(dinSample_some hd).1]
  · cases hi

/-! ### RESULT -/

/-- Settles O21: the phase check comes first. -/
theorem resultWithoutContextIsMisuse : Obligations.ResultWithoutContextIsMisuse := fun _ hc =>
  exec_result_of_closed hc

/-- Settles O23: BLEN is below 64, so both closed forms and leastness are arithmetic. -/
theorem paddingIsTheLeast : Obligations.PaddingIsTheLeast := by
  intro s
  have hlt := s.blen.isLt
  refine ⟨zeroCount s.blen, ?_, rfl, rfl, ?_⟩ <;> rw [zeroCount_eq]
  · omega
  · exact ⟨by omega, fun y hy => by omega, by omega, by omega⟩

/-- Settles O24: the tail has one or two blocks, and the final hash is the chain over them. -/
theorem finalBlocksAreOneOrTwo : Obligations.FinalBlocksAreOneOrTwo := by
  intro s
  have hone (h : s.blen.toNat ≤ 55) : (tailBytes s).length = 64 := by rw [length_tailBytes, if_pos h]
  have htwo (h : 56 ≤ s.blen.toNat) : (tailBytes s).length = 128 := by
    rw [length_tailBytes, if_neg (by omega)]
  refine ⟨fun h => ⟨hone h, ?_⟩, fun h => ⟨htwo h, ?_⟩, fun h => ⟨fun ht => hone ?_, fun ht => htwo ?_⟩⟩
  · rw [finalHash_eq, hone h, chainBlocks_one]
  · rw [finalHash_eq, htwo h, chainBlocks_two]
  · omega
  · omega

/-! ### The length field -/

/-- R121: the length field drops TLEN[63:61] and ends in three 0 bits. -/
theorem bitLength_eq_append (v : DWord) : bitLength v = v.extractLsb' 0 61 ++ 0#3 := by
  apply BitVec.eq_of_toNat_eq
  rw [BitVec.toNat_append, BitVec.extractLsb'_toNat, bitLength, BitVec.toNat_mul]
  simp only [BitVec.ofNat_eq_ofNat, BitVec.toNat_ofNat, Nat.shiftRight_zero, Nat.shiftLeft_eq, Nat.zero_mod, Nat.or_zero]
  omega

/-- R54: byte `k` of `le64` is bits 8k+7..8k. -/
theorem getElem?_le64 (l : DWord) {k : Nat} (hk : k < 8) : (le64 l)[k]? = some (l.extractLsb' (8 * k) 8) := by
  interval_cases k <;> rfl

/-- RESULT sees TLEN only through the length field (R120). -/
theorem finalHash_of_bitLength {s : State} {v : DWord} (h : bitLength v = bitLength s.tlen) :
    finalHash { s with tlen := v } = finalHash s := by
  have htail : tailBytes { s with tlen := v } = tailBytes s := by
    simp only [tailBytes, h, bufValid]
  rw [finalHash_eq, finalHash_eq, htail]

/-- Settles O25: the field is a function of TLEN[60:0], and RESULT sees TLEN only through it. -/
theorem lengthFieldIsLittleEndianBitCount : Obligations.LengthFieldIsLittleEndianBitCount := by
  refine ⟨fun v => ⟨?_, bitLength_eq_append v⟩, fun l _ hk => getElem?_le64 l hk, fun s t u v hv ht hu => ?_⟩
  · simp [bitLength, BitVec.toNat_mul]
  · have hbits : bitLength v = bitLength s.tlen := by rw [bitLength_eq_append, bitLength_eq_append, hv]
    by_cases ho : ContextOpen s
    · obtain rfl := Host.Outcome.next.inj ((exec_result_of_open ho).symm.trans ht)
      obtain rfl := Host.Outcome.next.inj ((exec_result_of_open (s := { s with tlen := v }) ho).symm.trans hu)
      simp [finalHash_of_bitLength hbits]
    · have hc := closed_iff_not_open.2 ho
      obtain rfl := Host.Outcome.next.inj ((exec_result_of_closed hc).symm.trans ht)
      obtain rfl := Host.Outcome.next.inj ((exec_result_of_closed (s := { s with tlen := v }) hc).symm.trans hu)
      simp

/-! ### The phase machine -/

/-- Settles O26: row by row, the equation of the command in that phase. -/
theorem phaseTransitionTable : Obligations.PhaseTransitionTable := by
  refine ⟨fun s => ⟨_, exec_begin s, rfl, rfl⟩, fun s n hn hw => ?_, fun s n hn => ?_, fun s => ?_,
    fun s w rest hp hw => ?_, fun s rest hp => ⟨_, step_of_reset hp, rfl⟩⟩
  · by_cases ho : ContextOpen s
    · obtain ⟨d, hnext, -⟩ := exec_update_of_written ho hn hw
      refine ⟨_, hnext, ?_⟩
      rcases ho with hphase | hphase <;> simp [hphase]
    · have hc := closed_iff_not_open.2 ho
      refine ⟨_, exec_update_of_closed n hc, ?_⟩
      rcases hc with hphase | hphase <;> simp [hphase]
  · by_cases ho : ContextOpen s
    · refine ⟨_, exec_update_of_long ho hn, ?_⟩
      rcases ho with hphase | hphase <;> simp [hphase]
    · have hc := closed_iff_not_open.2 ho
      refine ⟨_, exec_update_of_closed n hc, ?_⟩
      rcases hc with hphase | hphase <;> simp [hphase]
  · by_cases ho : ContextOpen s
    · refine ⟨_, exec_result_of_open ho, ?_⟩
      rcases ho with hphase | hphase <;> simp [hphase]
    · have hc := closed_iff_not_open.2 ho
      refine ⟨_, exec_result_of_closed hc, ?_⟩
      rcases hc with hphase | hphase <;> simp [hphase]
  · exact ⟨_, illegalWordChangesLastAndStickyOnly.2 s w rest hp hw, rfl, rfl⟩

end Sys2Proof.Machine
end

section
/-! Proofs about the message a context absorbs and its digest (40_context_ops.md R132, R133). -/

namespace Sys2Proof.Machine

/-- Settles O41: BEGIN starts the empty message, and the sample extends the message. -/
theorem updateExtendsTheMessage : Obligations.UpdateExtendsTheMessage := by
  refine ⟨fun s t h => ?_, fun m s n hm hn hw => ?_⟩
  · obtain rfl := Host.Outcome.next.inj ((exec_begin s).symm.trans h)
    exact absorbed_of_begin s
  · obtain ⟨d, hnext, hlen, hread⟩ := exec_update_of_written hm.isOpen hn hw
    exact ⟨d, _, hnext, hlen, hread, absorbed_of_update hm⟩

/-- Settles O42: the context is open, and the final hash is the reference function's. -/
theorem resultWritesMd5OfTheMessage : Obligations.ResultWritesMd5OfTheMessage := fun _ _ hm =>
  ⟨_, exec_result_of_open hm.isOpen, digest_of_result hm, rfl, rfl⟩

/-- Settles O46: BEGIN starts the empty message, UPDATEB absorbs `msg`, and RESULT writes its MD5. -/
theorem beginUpdateResultComputesMd5 : Obligations.BeginUpdateResultComputesMd5 := by
  intro s msg _
  obtain ⟨u, hu, hm⟩ := performAll_updateB msg (absorbed_of_begin (withPending [] s))
  refine ⟨respond .ok (finishContext u), ?_, digest_of_result hm, rfl, rfl, rfl⟩
  have hbegin := (perform_command .begin (withPending [] s)).trans (exec_begin _)
  have hresult := (perform_command .result u).trans (exec_result_of_open hm.isOpen)
  rw [runActions_eq, List.append_assoc, List.singleton_append, performAll_cons_of_next hbegin,
    performAll_append_of_next hu, performAll_cons_of_next hresult]
  rfl

/-! ### Sessions -/

/-- What the next step absorbs when it is an UPDATE (R102, R103, R110). -/
theorem absorbedNext_of_update {s : State} {w : Word} {n : BitVec 7} {rest : List HostAction}
    (hp : s.pending = .issue w :: rest) (hd : decode w = .ok (.update n)) : absorbedNext s =
      if ContextClosed s ∨ 64 < n.toNat then [] else (dinSample n.toNat s).getD [] := by
  simp only [absorbedNext, hp, hd]

/-- No other command absorbs anything. -/
theorem absorbedNext_of_not_update {s : State} {w : Word} {rest : List HostAction}
    (hp : s.pending = .issue w :: rest) (hd : ∀ n, decode w ≠ .ok (.update n)) : absorbedNext s = [] := by
  simp only [absorbedNext, hp]

/-- No action but a command absorbs anything. -/
theorem absorbedNext_of_port {s : State} {a : HostAction} {rest : List HostAction} (hp : s.pending = a :: rest)
    (ha : ∀ w, a ≠ .issue w) : absorbedNext s = [] := by
  cases a with
  | issue w => exact absurd rfl (ha w)
  | _ => simp only [absorbedNext, hp]

/-- `t` is the open context `s` extended by the bytes `s` absorbs next. -/
def ExtendsByNext (s t : State) : Prop := ContextOpen t ∧ SameContext t (updateContext (absorbedNext s) s)

/-- A step that absorbs nothing and leaves the context. -/
theorem extendsByNext_of_frame {s t : State} (ho : ContextOpen s) (hnone : absorbedNext s = [])
    (hphase : t.phase = s.phase) (hctx : SameContext t s) : ExtendsByNext s t := by
  refine ⟨by rwa [ContextOpen, hphase], ?_⟩
  rw [hnone]
  exact hctx.trans (updateContext_nil s).symm

/-- A rejected command that absorbs nothing. -/
theorem extendsByNext_of_reject {s : State} (ho : ContextOpen s) (hnone : absorbedNext s = []) (c : Response)
    (p : List HostAction) : ExtendsByNext s (respond c (setSticky c (withPending p s))) :=
  extendsByNext_of_frame ho hnone (by simp [withPending])
    ((SameContext.reject c _).trans ((leavesContext_withPending p).context s))

/-- A command inside an open context is an accepted UPDATE or is rejected (R130). -/
theorem extendsByNext_of_exec {s t : State} {i : Instr} {w : Word} {rest : List HostAction} (ho : ContextOpen s)
    (hp : s.pending = .issue w :: rest) (hd : decode w = .ok i) (hstay : endsContext s = false)
    (h : exec i (withPending rest s) = .next t) : ExtendsByNext s t := by
  obtain ⟨rfl, -⟩ | ⟨-, hc, -⟩ | ⟨n, rfl, -, hn, rfl⟩ | ⟨n, d, rfl, -, hn, hsample, rfl⟩ | ⟨rfl, -⟩ := exec_cases h
  · simp [endsContext, hp, hd] at hstay
  · exact absurd hc (not_closed_of_open ho)
  · exact extendsByNext_of_reject ho ((absorbedNext_of_update hp hd).trans (if_pos (.inr hn))) _ rest
  · have hbytes : absorbedNext s = d := by
      rw [absorbedNext_of_update hp hd, if_neg (not_or.2 ⟨not_closed_of_open ho, not_lt.2 hn⟩)]
      exact congrArg (Option.getD · []) hsample
    rw [ExtendsByNext, hbytes]
    exact ⟨.inr (by simp), (SameContext.respond ..).trans (((leavesContext_withPending rest).context s).update d)⟩
  · simp [endsContext, hp, hd, ho] at hstay

/-- A step that stays in an open context extends it by the bytes it absorbs (R132). -/
theorem step_extendsByNext {s t : State} (ho : ContextOpen s) (hstay : endsContext s = false)
    (h : step s = .next t) : ExtendsByNext s t := by
  obtain ⟨hp, rfl⟩ | ⟨a, rest, hp, h⟩ := step_cases h
  · exact extendsByNext_of_frame ho (by simp only [absorbedNext, hp]) rfl (.refl _)
  obtain ⟨w, i, rfl, hd, h⟩ | ⟨w, e, rfl, hd, rfl⟩ | ⟨k, b, rfl, rfl⟩ | ⟨rfl, rfl⟩ | ⟨rfl, -, rfl⟩ | ⟨rfl, -⟩ :=
    perform_cases h
  · exact extendsByNext_of_exec ho hp hd hstay h
  · exact extendsByNext_of_reject ho (absorbedNext_of_not_update hp (by simp [hd])) _ rest
  · exact extendsByNext_of_frame ho (absorbedNext_of_port hp (by simp)) rfl ⟨rfl, rfl, rfl, rfl⟩
  · exact extendsByNext_of_frame ho (absorbedNext_of_port hp (by simp)) rfl ⟨rfl, rfl, rfl, rfl⟩
  · exact extendsByNext_of_frame ho (absorbedNext_of_port hp (by simp)) rfl ⟨rfl, rfl, rfl, rfl⟩
  · simp [endsContext, hp] at hstay

/-- A session from an open context does what one UPDATE of all its bytes would do (R132). -/
theorem sessionRun_sameContext {k : Nat} {s t : State} {b : List Byte} (ho : ContextOpen s)
    (h : sessionRun k s = some (b, t)) : ContextOpen t ∧ SameContext t (updateContext b s) := by
  induction k generalizing s b with
  | zero =>
    simp only [sessionRun_zero, Option.some.injEq, Prod.mk.injEq] at h
    obtain ⟨rfl, rfl⟩ := h
    exact ⟨ho, (updateContext_nil s).symm⟩
  | succ k ih =>
    obtain ⟨hstay, u, c, hu, hk, rfl⟩ := sessionRun_succ_iff.1 h
    obtain ⟨hou, hnext⟩ := step_extendsByNext ho hstay hu
    obtain ⟨hot, hrest⟩ := ih hou hk
    exact ⟨hot, hrest.trans ((hnext.update c).trans (updateContext_append s _ c).symm)⟩

/-- Settles O45: both sessions do what one UPDATE of `b` would do, and RESULT reads the context only. -/
theorem chunkIndependence : Obligations.ChunkIndependence := by
  intro s₁ s₂ t₁ t₂ k₁ k₂ b ho₁ ho₂ hsame h₁ h₂
  obtain ⟨hot₁, hctx₁⟩ := sessionRun_sameContext ho₁ h₁
  obtain ⟨hot₂, hctx₂⟩ := sessionRun_sameContext ho₂ h₂
  have hctx : SameContext t₁ t₂ := hctx₁.trans ((hsame.update b).trans hctx₂.symm)
  exact ⟨hctx, _, _, exec_result_of_open hot₁, exec_result_of_open hot₂, congrArg serialize hctx.finalHash⟩

end Sys2Proof.Machine
end

section
/-! Proofs about the compression function (44_compression.md): its round functions, message words and schedule. -/

namespace Sys2Proof.Machine

/-! ### The round functions -/

/-- R141: `x` chooses between `y` and `z`. -/
theorem getLsbD_f0 (x y z : Word) {k : Nat} (hk : k < 32) :
    (f0 x y z).getLsbD k = if x.getLsbD k then y.getLsbD k else z.getLsbD k := by
  rw [f0, BitVec.getLsbD_or, BitVec.getLsbD_and, BitVec.getLsbD_and, BitVec.getLsbD_not, decide_eq_true hk]
  cases x.getLsbD k <;> simp

/-- R142: `f1` is `f0` with `z` as the choosing word. -/
theorem f1_eq_f0 (x y z : Word) : f1 x y z = f0 z x y := by
  rw [f1, f0, BitVec.and_comm x, BitVec.and_comm y]

/-- R143. -/
theorem getLsbD_f2 (x y z : Word) (k : Nat) :
    (f2 x y z).getLsbD k = ((x.getLsbD k ^^ y.getLsbD k) ^^ z.getLsbD k) := by
  rw [f2, BitVec.getLsbD_xor, BitVec.getLsbD_xor]

/-- R144. -/
theorem getLsbD_f3 (x y z : Word) {k : Nat} (hk : k < 32) :
    (f3 x y z).getLsbD k = (y.getLsbD k ^^ (x.getLsbD k || !z.getLsbD k)) := by
  rw [f3, BitVec.getLsbD_xor, BitVec.getLsbD_or, BitVec.getLsbD_not, decide_eq_true hk, Bool.true_and]

/-- Settles O33: each function is read off bit by bit, `f1` through `f0`; the examples are computed. -/
theorem roundFunctionsBitwise : Obligations.RoundFunctionsBitwise := by
  refine ⟨fun x y z k hk => ⟨getLsbD_f0 x y z hk, ?_, getLsbD_f2 x y z k, getLsbD_f3 x y z hk⟩, ?_⟩
  · rw [f1_eq_f0, getLsbD_f0 z x y hk]
  · decide

/-! ### The message words -/

/-- R11: the first byte of `le32inv` is the lowest of the word. -/
theorem le32inv_eq_append (b0 b1 b2 b3 : Byte) : le32inv b0 b1 b2 b3 = b3 ++ b2 ++ b1 ++ b0 := by
  have happend : (b3 ++ b2 ++ b1 ++ b0).setWidth 32 =
      (b3.setWidth 32 <<< 24) ||| (b2.setWidth 32 <<< 16) ||| (b1.setWidth 32 <<< 8) ||| b0.setWidth 32 := by
    rw [BitVec.setWidth_append_append_append_eq_shiftLeft_setWidth_or]
  rw [BitVec.setWidth_eq] at happend
  rw [happend, le32inv, BitVec.or_comm _ (b3.setWidth 32 <<< 24), BitVec.or_comm _ (b2.setWidth 32 <<< 16),
    BitVec.or_comm (b0.setWidth 32), BitVec.or_assoc, BitVec.or_assoc]

/-- Above its lowest byte, a word shows the bytes of the rest. -/
theorem extractLsb'_append_byte {w : Nat} (hi : BitVec w) (lo : Byte) (k : Nat) :
    (hi ++ lo).extractLsb' (8 * (k + 1)) 8 = hi.extractLsb' (8 * k) 8 :=
  BitVec.extractLsb'_append_eq_of_le (by omega)

/-- R11: byte `k` of `le32inv` is its `k`-th argument. -/
theorem extractLsb'_le32inv (b0 b1 b2 b3 : Byte) (k : Fin 4) :
    (le32inv b0 b1 b2 b3).extractLsb' (8 * k.val) 8 = [b0, b1, b2, b3][k] := by
  rw [le32inv_eq_append]
  match k with
  | 0 => exact BitVec.extractLsb'_append_eq_right
  | 1 => exact (extractLsb'_append_byte _ b0 0).trans BitVec.extractLsb'_append_eq_right
  | 2 =>
    exact (extractLsb'_append_byte _ b0 1).trans <|
      (extractLsb'_append_byte _ b1 0).trans BitVec.extractLsb'_append_eq_right
  | 3 =>
    exact (extractLsb'_append_byte _ b0 2).trans <|
      (extractLsb'_append_byte _ b1 1).trans BitVec.extractLsb'_append_eq_left

/-- Settles O34: a message word is `le32inv` of the four bytes that start at `4 * j`; the "abc" block is computed. -/
theorem messageWordsAreLittleEndian : Obligations.MessageWordsAreLittleEndian := by
  refine ⟨fun blk j k => ?_, by decide +kernel⟩
  rw [messageWord, extractLsb'_le32inv]
  match k with
  | 0 | 1 | 2 | 3 => rfl

/-! ### The schedule and the worked example -/

/-- Settles O35: the 64 rows of the table are compared with the formulas one by one. -/
theorem scheduleFollowsTheFormulas : Obligations.ScheduleFollowsTheFormulas := by
  refine ⟨rfl, fun i row hrow => ?_, by decide⟩
  obtain ⟨hi, rfl⟩ := List.getElem?_eq_some_iff.1 hrow
  decide +revert

/-- Settles O36: both examples are runs on a fixed block. -/
theorem compressOfAbcBlock : Obligations.CompressOfAbcBlock := by
  constructor
  · decide +kernel
  · decide +kernel

end Sys2Proof.Machine
end

section
/-! Proofs about the responses, the errors and their priority, and about several engines (60_exceptions.md). -/

namespace Sys2Proof.Machine

/-- Settles O6: a step with no action to take is the model's own wait. -/
theorem idleEngineHoldsItsState : Obligations.IdleEngineHoldsItsState := fun _ => step_of_nil

/-! ### Response codes and priority -/

/-- R185: a rejection field by field. -/
theorem reject_eq_fields (c : Response) (s : State) : respond c (setSticky c s) = { s with
    last := c
    errIllegalS := s.errIllegalS || c == .errIllegal
    errMisuseS := s.errMisuseS || c == .errMisuse
    errLengthS := s.errLengthS || c == .errLength
    obs := s.obs ++ [.response c] } := by
  cases c <;> simp [respond, observe, setSticky]

/-- Settles O9: of the commands that complete only a rejected one answers an error, and it writes no other field. -/
theorem errorResponseChangesNothingElse : Obligations.ErrorResponseChangesNothingElse := by
  intro s t w rest hp h hne
  obtain ⟨-, rfl⟩ | ⟨c, -, -, rfl⟩ | ⟨n, d, -, -, rfl⟩ | ⟨-, -, rfl⟩ := perform_issue_cases (perform_of_step hp h)
  · exact absurd rfl hne
  · exact reject_eq_fields c (withPending rest s)
  · exact absurd rfl hne
  · exact absurd rfl hne

/-- R181 to R184: the response of a command that completes, with the reason for it. -/
theorem last_of_step_issue {s t : State} {w : Word} {rest : List HostAction} (hp : s.pending = .issue w :: rest)
    (h : step s = .next t) :
    (t.last = .errIllegal ∧ ∃ e, decode w = .error e) ∨
    (t.last = .errMisuse ∧ ContextClosed s ∧ ((∃ n, decode w = .ok (.update n)) ∨ decode w = .ok .result)) ∨
    (t.last = .errLength ∧ ContextOpen s ∧ ∃ n, decode w = .ok (.update n) ∧ 65 ≤ n.toNat) ∨
    (t.last = .ok ∧ (decode w = .ok .begin ∨
      ContextOpen s ∧ ((∃ n, decode w = .ok (.update n) ∧ n.toNat ≤ 64) ∨ decode w = .ok .result))) := by
  have hperf := perform_of_step hp h
  cases hd : decode w with
  | error e =>
    rw [perform_issue_error hd] at hperf
    cases hperf
    exact .inl ⟨rfl, e, rfl⟩
  | ok i =>
    rw [perform_issue_ok hd] at hperf
    obtain ⟨rfl, rfl⟩ | ⟨hi, hc, rfl⟩ | ⟨n, rfl, ho, hn, rfl⟩ | ⟨n, d, rfl, ho, hn, -, rfl⟩ | ⟨rfl, ho, rfl⟩ :=
      exec_cases hperf
    · exact .inr (.inr (.inr ⟨rfl, .inl rfl⟩))
    · refine .inr (.inl ⟨rfl, hc, ?_⟩)
      cases i with
      | begin => exact absurd rfl hi
      | update n => exact .inl ⟨n, rfl⟩
      | result => exact .inr rfl
    · exact .inr (.inr (.inl ⟨rfl, ho, n, rfl, hn⟩))
    · exact .inr (.inr (.inr ⟨rfl, .inr ⟨ho, .inl ⟨n, rfl, hn⟩⟩⟩))
    · exact .inr (.inr (.inr ⟨rfl, .inr ⟨ho, .inr rfl⟩⟩))

/-- Settles O8: each response has its reason by `last_of_step_issue`, and the reasons exclude one another. -/
theorem responseCodesExactly : Obligations.ResponseCodesExactly := by
  intro s t w rest hp h
  suffices hcodes : _ ∧ _ ∧ _ ∧ _ by
    obtain ⟨hillegal, hmisuse, hlength, hok⟩ := hcodes
    exact ⟨hillegal, hmisuse, hlength, hok, fun hne => by
      rw [errorResponseChangesNothingElse s t w rest hp h hne]⟩
  obtain ⟨hl, e, hd⟩ | ⟨hl, hc, hd⟩ | ⟨hl, ho, n, hd, hn⟩ | ⟨hl, hd | ⟨ho, ⟨n, hd, hn⟩ | hd⟩⟩ :=
    last_of_step_issue hp h
  · simp [hl, hd]
  · rcases hd with ⟨n, hd⟩ | hd <;> simp [hl, hd, hc, closed_iff_not_open.1 hc]
  · have hlong : ¬ n.toNat ≤ 64 := Nat.not_le.2 hn
    simp [hl, hd, ho, not_closed_of_open ho, hn, hlong]
  · simp [hl, hd]
  · have hshort : ¬ 65 ≤ n.toNat := Nat.not_lt.2 hn
    simp [hl, hd, ho, not_closed_of_open ho, hn, hshort]
  · simp [hl, hd, ho, not_closed_of_open ho]

/-- Settles O10: the checks in their order; a fault is that of an accepted UPDATE. -/
theorem firstErrorWins : Obligations.FirstErrorWins := by
  intro s w rest hp
  have hok {i} (hd : decode w = .ok i) : step s = exec i (withPending rest s) :=
    stepRunsDecodedCommand s w i rest hp hd
  refine ⟨illegalWordChangesLastAndStickyOnly.2 s w rest hp, fun i hd hi hc => ?_, fun n hd hc hn => ?_, fun f h => ?_⟩
  · rw [hok hd]
    cases i with
    | begin => exact absurd rfl hi
    | update n => exact exec_update_of_closed n hc
    | result => exact exec_result_of_closed hc
  · have ho : ContextOpen s := not_not.1 (mt closed_iff_not_open.2 hc)
    exact (hok hd).trans (exec_update_of_long (s := withPending rest s) ho hn)
  · cases hd : decode w with
    | error e =>
      rw [step_of_cons hp, perform_issue_error hd] at h
      cases h
    | ok i =>
      rw [hok hd] at h
      obtain ⟨-, n, rfl, ho, hn, hnone⟩ := exec_not_next.1 f h
      obtain ⟨k, hk, hread⟩ := dinSample_eq_none.1 hnone
      exact ⟨n, rfl, ho, hn, fun hw => Option.isSome_iff_ne_none.1 (hw k hk) hread⟩

/-! ### Several engines -/

/-- R194: a platform's step completes when its engine's own step does, with that engine replaced. -/
theorem platformStep_eq_next_iff {p q : Platform} {k : Fin p.length} :
    platformStep p k = .next q ↔ ∃ t, step p[k] = .next t ∧ p.set k t = q := by
  unfold platformStep
  cases step p[k] <;> simp

/-- Settles O49: replacing one entry of a list keeps its length and its other entries. -/
theorem enginesAreIndependent : Obligations.EnginesAreIndependent := by
  intro p q k h
  obtain ⟨u, hu, rfl⟩ := platformStep_eq_next_iff.1 h
  refine ⟨List.length_set, fun t ht => ?_, fun j hj => List.getElem?_set_ne hj.symm⟩
  obtain rfl := Host.Outcome.next.inj (hu.symm.trans ht)
  exact List.getElem?_set_self k.isLt

end Sys2Proof.Machine
end

section
/-! Proofs about reset, BEGIN as the context reset, and what STATUS[10:8] = 0 says (70_reset_and_hazards.md R200, R202,
R206). -/

namespace Sys2Proof.Machine

/-- Settles O38: the reset's own writes leave the host's plans and observation alone. -/
theorem resetAlwaysCompletes : Obligations.ResetAlwaysCompletes := fun _ _ hp =>
  ⟨_, step_of_reset hp, rfl, rfl⟩

/-- Settles O14: BEGIN has one case in every phase, and `beginContext` writes none of the fields it is to leave. -/
theorem beginStartsContext : Obligations.BeginStartsContext :=
  ⟨fun s => ⟨_, exec_begin s, rfl, rfl, rfl, rfl, rfl, rfl, rfl, rfl, rfl, rfl, rfl, rfl, fun _ => rfl⟩,
    _, exec_begin State.reset, rfl⟩

/-- STATUS[10:8] = 0 exactly when no sticky bit is set (R31, R33). -/
theorem errorFree_iff (s : State) :
    ErrorFree s ↔ s.errIllegalS = false ∧ s.errMisuseS = false ∧ s.errLengthS = false := by
  constructor
  · intro h
    have hbit (k : Nat) (hk : k < 3) : (statusWord s).getLsbD (8 + k) = false := by
      simpa [hk] using congrArg (·.getLsbD k) h
    exact ⟨(getLsbD_statusWord s 8).symm.trans (hbit 0 (by decide)),
      (getLsbD_statusWord s 9).symm.trans (hbit 1 (by decide)),
      (getLsbD_statusWord s 10).symm.trans (hbit 2 (by decide))⟩
  · rintro ⟨hillegal, hmisuse, hlength⟩
    apply BitVec.eq_of_getLsbD_eq
    intro k hk
    rw [BitVec.getLsbD_extractLsb', getLsbD_statusWord]
    interval_cases k <;> simp [hillegal, hmisuse, hlength]

/-- R185: a command after which no sticky bit is set found none set and was answered OK. -/
theorem errorFree_of_issue {w : Word} {s t : State} (h : perform (.issue w) s = .next t) (hfree : ErrorFree t) :
    ErrorFree s ∧ t.last = .ok := by
  simp only [errorFree_iff, sticky_of_issue h, Bool.or_eq_false_iff] at hfree ⊢
  obtain ⟨⟨hillegal, hnoIllegal⟩, ⟨hmisuse, hnoMisuse⟩, hlength, hnoLength⟩ := hfree
  refine ⟨⟨hillegal, hmisuse, hlength⟩, ?_⟩
  cases hl : t.last with
  | ok => rfl
  | errIllegal => simp [hl] at hnoIllegal
  | errMisuse => simp [hl] at hnoMisuse
  | errLength => simp [hl] at hnoLength

/-- R33: an action that is no command and no reset leaves the sticky bits as it found them. -/
theorem errorFree_of_port {a : HostAction} {s t : State} (ha : ∀ w, a ≠ .issue w) (hr : a ≠ .reset)
    (h : perform a s = .next t) (hfree : ErrorFree t) : ErrorFree s := by
  rw [errorFree_iff] at hfree ⊢
  obtain ⟨k, b, -, rfl⟩ | ⟨-, o, rfl⟩ | ⟨hreset, -⟩ := perform_port_cases ha h
  · exact hfree
  · exact hfree
  · exact absurd hreset hr

/-- Settles O13: a command by `errorFree_of_issue`, and one answered OK was legal; any other action by
`errorFree_of_port`. -/
theorem errorFreeStatusMeansEveryCommandAccepted : Obligations.ErrorFreeStatusMeansEveryCommandAccepted := by
  refine ⟨errorFree_iff, fun s t a rest hp h hr hfree => ?_⟩
  have hperf := perform_of_step hp h
  by_cases ha : ∃ w, a = .issue w
  · obtain ⟨w, rfl⟩ := ha
    obtain ⟨hs, hok⟩ := errorFree_of_issue (s := withPending rest s) hperf hfree
    refine ⟨hs, ?_⟩
    rintro _ ⟨⟩
    refine ⟨hok, not_forall_not.1 fun hillegal => ?_⟩
    have hcode := (responseCodesExactly s t w rest hp h).1.2 hillegal
    cases hok.symm.trans hcode
  · have hw := not_exists.1 ha
    exact ⟨errorFree_of_port (s := withPending rest s) hw hr hperf hfree, fun w hwa => absurd hwa (hw w)⟩

end Sys2Proof.Machine
end

section
/-! Proofs about the digest of a session and when it may be trusted (70_reset_and_hazards.md R206). -/

namespace Sys2Proof.Machine

/-! ### What the host gets by one step -/

theorem step_pending {s t : State} (h : step s = .next t) : t.pending = s.pending.drop 1 := by
  obtain ⟨hp, rfl⟩ | ⟨a, rest, hp, h⟩ := step_cases h
  · rw [hp]; rfl
  · rw [hp]; exact perform_pending_eq h

/-- Only a command is answered (R208). -/
theorem responsesSince_of_port {a : HostAction} {s t : State} (ha : ∀ w, a ≠ .issue w) (h : perform a s = .next t) :
    responsesSince s t = [] := by
  obtain ⟨w, -, rfl, -⟩ | ⟨w, -, rfl, -⟩ | ⟨k, b, -, rfl⟩ | ⟨-, rfl⟩ | ⟨-, -, rfl⟩ | ⟨-, rfl⟩ := perform_cases h
  · exact absurd rfl (ha w)
  · exact absurd rfl (ha w)
  all_goals simp [responsesSince]

theorem noErrorBetween_of_no_response {s t : State} (h : responsesSince s t = []) : NoErrorBetween s t := by
  simp [NoErrorBetween, h]

/-- R32: a command met no error exactly when LAST is OK after it. -/
theorem noErrorBetween_of_issue {w : Word} {s t : State} (h : perform (.issue w) s = .next t) :
    NoErrorBetween s t ↔ t.last = .ok := by
  rw [NoErrorBetween, responsesSince_of_response (obs_of_issue h), List.forall_mem_singleton]

/-! ### What a session accounts for -/

/-- Each command among the host's next `k` actions is an UPDATE of at most 64 bytes. -/
def OnlyShortUpdates (k : Nat) (s : State) : Prop :=
  ∀ w, .issue w ∈ s.pending.take k → ∃ n, decode w = .ok (.update n) ∧ n.toNat ≤ 64

/-- The account of `k` steps from `s` to `t` that absorb `m`: no error is answered exactly if the host issues short UPDATEs
only, and the bytes absorbed are at most those the host asks for, and without an error exactly as many. -/
structure Accounts (k : Nat) (m : List Byte) (s t : State) : Prop where
  noError_iff : NoErrorBetween s t ↔ OnlyShortUpdates k s
  length_le : m.length ≤ sessionBytesAsked k s
  length_eq : NoErrorBetween s t → m.length = sessionBytesAsked k s

/-- The host's plans of two stretches are those of the first and then those of the second. -/
theorem onlyShortUpdates_add {i j : Nat} {s u : State} (hu : u.pending = s.pending.drop i) :
    OnlyShortUpdates (i + j) s ↔ OnlyShortUpdates i s ∧ OnlyShortUpdates j u := by
  simp only [OnlyShortUpdates, List.take_add, hu, List.mem_append, or_imp, forall_and]

theorem sessionBytesAsked_add {i j : Nat} {s u : State} (hu : u.pending = s.pending.drop i) :
    sessionBytesAsked (i + j) s = sessionBytesAsked i s + sessionBytesAsked j u := by
  simp only [sessionBytesAsked, List.take_add, hu, List.map_append, List.sum_append]

theorem Accounts.append {i j : Nat} {b c : List Byte} {s u t : State} (hb : Accounts i b s u) (hc : Accounts j c u t)
    (hu : u.pending = s.pending.drop i) (hsu : ∃ o, u.obs = s.obs ++ o) (hut : ∃ o, t.obs = u.obs ++ o) :
    Accounts (i + j) (b ++ c) s t where
  noError_iff := by
    rw [noErrorBetween_append hsu hut, onlyShortUpdates_add hu, hb.noError_iff, hc.noError_iff]
  length_le := by
    rw [sessionBytesAsked_add hu, List.length_append]
    exact Nat.add_le_add hb.length_le hc.length_le
  length_eq := fun hok => by
    obtain ⟨hokb, hokc⟩ := (noErrorBetween_append hsu hut).1 hok
    rw [sessionBytesAsked_add hu, List.length_append, hb.length_eq hokb, hc.length_eq hokc]

/-- A stretch in which the host issues no command. -/
theorem accounts_of_no_command {k : Nat} {s t : State} (hno : ∀ w, .issue w ∉ s.pending.take k)
    (hasked : sessionBytesAsked k s = 0) (hresp : responsesSince s t = []) : Accounts k [] s t where
  noError_iff := ⟨fun _ w hw => absurd hw (hno w), fun _ => noErrorBetween_of_no_response hresp⟩
  length_le := Nat.zero_le _
  length_eq := fun _ => hasked.symm

/-! ### One step of a session -/

theorem onlyShortUpdates_one_iff {s : State} {w : Word} {rest : List HostAction} (hp : s.pending = .issue w :: rest) :
    OnlyShortUpdates 1 s ↔ ∃ n, decode w = .ok (.update n) ∧ n.toNat ≤ 64 := by
  simp [OnlyShortUpdates, hp]

theorem sessionBytesAsked_one {s : State} {a : HostAction} {rest : List HostAction} (hp : s.pending = a :: rest) :
    sessionBytesAsked 1 s = bytesAsked a := by
  simp [sessionBytesAsked, hp]

/-- A command that is answered with an error is no short UPDATE and absorbs nothing. -/
theorem accounts_of_rejected {s t : State} {w : Word} {rest : List HostAction} (hp : s.pending = .issue w :: rest)
    (h : step s = .next t) (herr : t.last ≠ .ok) (hlong : ¬ ∃ n, decode w = .ok (.update n) ∧ n.toNat ≤ 64) :
    Accounts 1 [] s t := by
  have hno : ¬ NoErrorBetween s t := fun hok => herr ((noErrorBetween_of_issue (perform_of_step hp h)).1 hok)
  exact ⟨iff_of_false hno (mt (onlyShortUpdates_one_iff hp).1 hlong), Nat.zero_le _, fun hok => absurd hok hno⟩

/-- A short UPDATE that completes in an open context absorbs as many bytes as it names (R105). -/
theorem length_absorbedNext_of_short {s t : State} {w : Word} {n : BitVec 7} {rest : List HostAction}
    (ho : ContextOpen s) (hp : s.pending = .issue w :: rest) (hd : decode w = .ok (.update n)) (hn : n.toNat ≤ 64)
    (h : step s = .next t) : (absorbedNext s).length = n.toNat := by
  rw [absorbedNext_of_update hp hd, if_neg (not_or.2 ⟨not_closed_of_open ho, not_lt.2 hn⟩)]
  cases hsample : dinSample n.toNat s with
  | none =>
    have hfault : step s = .fault .dinUnwritten := (stepRunsDecodedCommand s w _ rest hp hd).trans
      (exec_update_of_unwritten (s := withPending rest s) ho hn hsample)
    cases hfault.symm.trans h
  | some d => exact (dinSample_some hsample).1

/-- A command inside an open context (R130): rejected, or a short UPDATE. -/
theorem accounts_of_issue {s t : State} {w : Word} {rest : List HostAction} (ho : ContextOpen s)
    (hp : s.pending = .issue w :: rest) (hstay : endsContext s = false) (h : step s = .next t) :
    Accounts 1 (absorbedNext s) s t := by
  obtain ⟨hl, e, hd⟩ | ⟨-, hc, -⟩ | ⟨hl, -, n, hd, hn⟩ | ⟨hl, hd | ⟨-, ⟨n, hd, hn⟩ | hd⟩⟩ := last_of_step_issue hp h
  · rw [absorbedNext_of_not_update hp (by simp [hd])]
    exact accounts_of_rejected hp h (by simp [hl]) (by simp [hd])
  · exact absurd hc (not_closed_of_open ho)
  · rw [absorbedNext_of_update hp hd, if_pos (.inr hn)]
    exact accounts_of_rejected hp h (by simp [hl]) (by simpa [hd] using Nat.lt_of_succ_le hn)
  · simp [endsContext, hp, hd] at hstay
  · have hasked : (absorbedNext s).length = sessionBytesAsked 1 s := by
      rw [length_absorbedNext_of_short ho hp hd hn h, sessionBytesAsked_one hp]
      simp only [bytesAsked, hd]
    have hok := (noErrorBetween_of_issue (perform_of_step hp h)).2 hl
    exact ⟨iff_of_true hok ((onlyShortUpdates_one_iff hp).2 ⟨n, hd, hn⟩), hasked.le, fun _ => hasked⟩
  · simp [endsContext, hp, hd, ho] at hstay

theorem accounts_of_step {s t : State} (ho : ContextOpen s) (hstay : endsContext s = false) (h : step s = .next t) :
    Accounts 1 (absorbedNext s) s t := by
  obtain ⟨hp, rfl⟩ | ⟨a, rest, hp, hperf⟩ := step_cases h
  · rw [show absorbedNext t = [] by simp only [absorbedNext, hp]]
    exact accounts_of_no_command (by simp [hp]) (by simp [sessionBytesAsked, hp]) (responsesSince_self t)
  by_cases ha : ∃ w, a = .issue w
  · obtain ⟨w, rfl⟩ := ha
    exact accounts_of_issue ho hp hstay h
  · have hw := not_exists.1 ha
    rw [absorbedNext_of_port hp hw]
    refine accounts_of_no_command ?_ ?_ (responsesSince_of_port (s := withPending rest s) hw hperf)
    · simpa [hp, eq_comm] using hw
    · rw [sessionBytesAsked_one hp]
      cases a with
      | issue w => exact absurd rfl (hw w)
      | _ => rfl

/-- The steps inside a context, one after another. -/
theorem accounts_of_sessionRun {k : Nat} {m : List Byte} {s t : State} (ho : ContextOpen s)
    (h : sessionRun k s = some (m, t)) : Accounts k m s t := by
  induction k generalizing s m with
  | zero =>
    cases h
    exact accounts_of_no_command (by simp) rfl (responsesSince_self _)
  | succ k ih =>
    obtain ⟨hstay, u, c, hu, hk, rfl⟩ := sessionRun_succ_iff.1 h
    obtain ⟨hou, -⟩ := step_extendsByNext ho hstay hu
    rw [Nat.add_comm]
    exact (accounts_of_step ho hstay hu).append (ih hou hk) (step_pending hu) (step_obs hu) (sessionRun_obs hk)

/-! ### A whole session -/

theorem Absorbed.of_sameContext {m : List Byte} {s t : State} (h : Absorbed m s) (ho : ContextOpen t)
    (hctx : SameContext t s) : Absorbed m t where
  isOpen := ho
  hash := hctx.hash.trans h.hash
  blen := by rw [hctx.blen, h.blen]
  valid := hctx.valid.trans h.valid
  tlen := hctx.tlen.trans h.tlen

/-- The steps inside a context extend its message by the bytes they absorb (R132). -/
theorem absorbed_of_sessionRun {k : Nat} {m b : List Byte} {s t : State} (hs : Absorbed m s)
    (h : sessionRun k s = some (b, t)) : Absorbed (m ++ b) t := by
  obtain ⟨ho, hctx⟩ := sessionRun_sameContext hs.isOpen h
  exact (absorbed_of_update hs).of_sameContext ho (hctx.trans (SameContext.respond .ok _).symm)

/-- A step that takes the word of `i` runs `i` (R100). -/
theorem exec_of_step_command {i : Instr} {s t : State} {rest : List HostAction} (hp : s.pending = command i :: rest)
    (h : step s = .next t) : exec i (withPending rest s) = .next t :=
  (perform_command i _).symm.trans (perform_of_step hp h)

/-- A session starts the empty message. -/
theorem Session.absorbed_nil {k : Nat} {m : List Byte} {s t : State} (h : Session k m s t) : Absorbed [] s := by
  obtain ⟨r, rest, hp, hr⟩ := h.begun
  cases exec_of_step_command hp hr
  exact absorbed_of_begin _

/-- A session ends with a RESULT on a context that has absorbed `m`. -/
theorem Session.exists_finished {k : Nat} {m : List Byte} {s t : State} (h : Session k m s t) :
    ∃ u rest, sessionRun k s = some (m, u) ∧ u.pending = command .result :: rest ∧ step u = .next t ∧
      Absorbed m u ∧ t = respond .ok (finishContext (withPending rest u)) := by
  obtain ⟨u, rest, hrun, hp, hu⟩ := h.finished
  have hm : Absorbed m u := absorbed_of_sessionRun h.absorbed_nil hrun
  have hresult := exec_result_of_open (s := withPending rest u) hm.isOpen
  exact ⟨u, rest, hrun, hp, hu, hm, Host.Outcome.next.inj ((exec_of_step_command hp hu).symm.trans hresult)⟩

/-- The RESULT that ends a session is answered OK. -/
theorem Session.noErrorBetween_iff {k : Nat} {m : List Byte} {s t u : State} (h : Session k m s t)
    (hrun : sessionRun k s = some (m, u)) : NoErrorBetween s t ↔ NoErrorBetween s u := by
  obtain ⟨v, rest, hv, -, hstep, -, rfl⟩ := h.exists_finished
  cases hrun.symm.trans hv
  have hresult : NoErrorBetween u (respond .ok (finishContext (withPending rest u))) := by
    rw [NoErrorBetween, responsesSince_of_response rfl, List.forall_mem_singleton]
  rw [noErrorBetween_append (sessionRun_obs hrun) (step_obs hstep), and_iff_left hresult]

/-- Settles O50: RESULT finds the context that has absorbed `m`; the commands before it are accounted for one by one. -/
theorem sessionDigestIsOfAbsorbedBytes : Obligations.SessionDigestIsOfAbsorbedBytes := by
  intro k m s t h
  obtain ⟨u, rest, hrun, -, -, hm, ht⟩ := h.exists_finished
  obtain ⟨hiff, hle, heq⟩ := accounts_of_sessionRun h.absorbed_nil.isOpen hrun
  rw [h.noErrorBetween_iff hrun]
  refine ⟨by rw [ht]; rfl, by rw [ht]; rfl, ?_, hle, hiff, heq⟩
  rw [ht]
  exact digest_of_result (hm.of_sameContext hm.isOpen ⟨rfl, rfl, rfl, rfl⟩)

/-! ### The two checks of R206 -/

/-- A step that is no BEGIN and no reset leaves PHASE, DVALID and DIGEST of a closed context, so a finished session's
digest can still be read (R28). -/
theorem step_of_closed {s t : State} (hc : ContextClosed s) (hstay : endsContext s = false) (h : step s = .next t) :
    t.phase = s.phase ∧ t.dvalid = s.dvalid ∧ t.digest = s.digest := by
  obtain ⟨-, rfl⟩ | ⟨a, rest, hp, h⟩ := step_cases h
  · exact ⟨rfl, rfl, rfl⟩
  by_cases ha : ∃ w, a = .issue w
  · obtain ⟨w, rfl⟩ := ha
    obtain ⟨hd, -⟩ | ⟨c, -, -, rfl⟩ | ⟨n, d, -, ho, -⟩ | ⟨-, ho, -⟩ := perform_issue_cases h
    · simp [endsContext, hp, hd] at hstay
    · simp
    · exact absurd hc (not_closed_of_open ho)
    · exact absurd hc (not_closed_of_open ho)
  · obtain ⟨k, b, -, rfl⟩ | ⟨-, o, rfl⟩ | ⟨rfl, -⟩ := perform_port_cases (not_exists.1 ha) h
    · exact ⟨rfl, rfl, rfl⟩
    · exact ⟨rfl, rfl, rfl⟩
    · simp [endsContext, hp] at hstay

theorem sessionRun_of_closed {k : Nat} {b : List Byte} {s t : State} (hc : ContextClosed s)
    (h : sessionRun k s = some (b, t)) : t.dvalid = s.dvalid ∧ t.digest = s.digest := by
  induction k generalizing s b with
  | zero => cases h; exact ⟨rfl, rfl⟩
  | succ k ih =>
    obtain ⟨hstay, u, c, hu, hk, -⟩ := sessionRun_succ_iff.1 h
    obtain ⟨hphase, hdvalid, hdigest⟩ := step_of_closed hc hstay hu
    obtain ⟨hdvalid', hdigest'⟩ := ih (by rwa [ContextClosed, hphase]) hk
    exact ⟨hdvalid'.trans hdvalid, hdigest'.trans hdigest⟩

/-- STATUS[10:8] = 0 after a step that is no reset: it was 0 before, and no error was answered. -/
theorem errorFree_of_step {s t : State} (hr : ∀ rest, s.pending ≠ .reset :: rest) (h : step s = .next t)
    (hfree : ErrorFree t) : ErrorFree s ∧ NoErrorBetween s t := by
  obtain ⟨-, rfl⟩ | ⟨a, rest, hp, hperf⟩ := step_cases h
  · exact ⟨hfree, noErrorBetween_of_no_response (responsesSince_self _)⟩
  have hreset : a ≠ .reset := by rintro rfl; exact hr rest hp
  obtain ⟨hs, haccepted⟩ := errorFreeStatusMeansEveryCommandAccepted.2 s t a rest hp h hreset hfree
  refine ⟨hs, ?_⟩
  by_cases ha : ∃ w, a = .issue w
  · obtain ⟨w, rfl⟩ := ha
    obtain ⟨hok, -⟩ := haccepted w rfl
    exact (noErrorBetween_of_issue (perform_of_step hp h)).2 hok
  · exact noErrorBetween_of_no_response (responsesSince_of_port (s := withPending rest s) (not_exists.1 ha) hperf)

theorem errorFree_of_sessionRun {k : Nat} {b : List Byte} {s t : State} (h : sessionRun k s = some (b, t))
    (hfree : ErrorFree t) : ErrorFree s ∧ NoErrorBetween s t := by
  induction k generalizing s b with
  | zero => cases h; exact ⟨hfree, noErrorBetween_of_no_response (responsesSince_self _)⟩
  | succ k ih =>
    obtain ⟨hstay, u, c, hu, hk, -⟩ := sessionRun_succ_iff.1 h
    obtain ⟨hufree, hrest⟩ := ih hk
    have hr : ∀ rest, s.pending ≠ .reset :: rest := fun rest hp => by simp [endsContext, hp] at hstay
    obtain ⟨hsfree, hfirst⟩ := errorFree_of_step hr hu hufree
    exact ⟨hsfree, (noErrorBetween_append (step_obs hu) (sessionRun_obs hk)).2 ⟨hfirst, hrest⟩⟩

/-- Settles O51: the digest stands until it is read; STATUS[10:8] = 0 goes back from the read to the session's BEGIN. -/
theorem eitherErrorCheckShowsDigestTrusted : Obligations.EitherErrorCheckShowsDigestTrusted := by
  intro k j m b s t u h hread
  obtain ⟨hdvalid, hphase, hdigest, -, -, hlength⟩ := sessionDigestIsOfAbsorbedBytes k m s t h
  obtain ⟨hkeptDvalid, hkeptDigest⟩ := sessionRun_of_closed (.inr hphase) hread
  have hvalid : u.dvalid = true := hkeptDvalid.trans hdvalid
  refine ⟨hvalid, hkeptDigest.trans hdigest, fun hfree => ?_, fun hok => ⟨⟨hvalid, .inr ?_⟩, hlength hok⟩⟩
  · obtain ⟨v, rest, hrun, hp, hstep, -⟩ := h.exists_finished
    obtain ⟨htfree, -⟩ := errorFree_of_sessionRun hread hfree
    obtain ⟨hvfree, -⟩ := errorFree_of_step (fun _ hreset => by simp [hp, command] at hreset) hstep htfree
    obtain ⟨-, hok⟩ := errorFree_of_sessionRun hrun hvfree
    exact (h.noErrorBetween_iff hrun).2 hok
  · exact ⟨k, m, s, t, h, hok, j, b, hread⟩

end Sys2Proof.Machine
end
